-- ==== Sys2Proof/Word.lean ====
section
/-! DEFINITION. The three value kinds of 00_scope.md R13: Byte, Word and Addr. -/

namespace Sys2Proof

/-- An unsigned 8-bit value, 0..255 (R13). -/
abbrev Byte := BitVec 8

/-- An unsigned 32-bit value (R13): a command word, RES, a register as the host reads it. -/
abbrev Word := BitVec 32

/-- An unsigned 24-bit value (R13): a DMEM address, and the width of SRC, DST, LEN and CAP (R11). -/
abbrev Addr := BitVec 24

end Sys2Proof
end

