-- ==== Sys2Proof/Config.lean ====
section
/-! DEFINITION. What one implementation fixes: the constants of R9, the two open parameters of R10
as `State.reset` sets them, and the free value for DMEM bytes nothing has written. -/

namespace Sys2Proof.Config

/-- HIST_SIZE (R9): byte slots of one channel's history. -/
abbrev histSize : Nat := 256

/-- DIST_MIN (R9). -/
def distMin : Int := 1

/-- DIST_MAX (R9). -/
def distMax : Int := 256

/-- CRC_POLY (R9). -/
def crcPoly : Word := 0xEDB88320

/-- CRC_ROUNDS (R9): rounds of the generator for each entry. -/
def crcRounds : Nat := 8

/-- The largest legal NCH (R10). -/
def nchMax : Nat := 16

/-- The largest legal MEM_BYTES (R10). -/
def memBytesMax : Nat := 2 ^ 24

/-- NCH in `State.reset`. DESIGN CHOICE (log 1): R10 leaves NCH open, 1..16; 2 is the value the
spec's own vectors use (95_test_vectors.md). Only `State.reset` uses it: every other definition
reads NCH off the state. -/
def resetNch : Nat := 2

/-- MEM_BYTES in `State.reset`. DESIGN CHOICE (log 2): R10 leaves it open, 1..2^24; 0x1000 is the
value the spec's own vectors use (95_test_vectors.md). Only `State.reset` uses it. -/
def resetMemBytes : Nat := 0x1000

/-- A free value (log 3): what DMEM holds at each address from power-up until something writes it.
R39: "a model must not assume any value". It has no body, so nothing can be proved of it. -/
opaque powerUpByte : Nat → Byte

end Sys2Proof.Config
end

