-- ==== Sys2Proof/Syntax.lean ====
section
/-! DEFINITION. The commands of the opcode map (30_encoding.md R74), one constructor a row, and the
pseudo-instructions of R81. Operands are the numbers R73 reads from the word: imm24, imm8 and ch are
unsigned, simm16 is a signed integer. Their ranges are checked in WellFormed.lean. -/

namespace Sys2Proof

/-- The thirteen commands of R74. -/
inductive Instr where
  | nop
  | setsrc (imm24 : Nat)
  | setdst (imm24 : Nat)
  | setlen (imm24 : Nat)
  | setcap (imm24 : Nat)
  | crcl (imm8 : Nat)
  | dinite (ch : Nat) (simm16 : Int)
  | dinitd (ch : Nat) (simm16 : Int)
  | drel (ch : Nat)
  | dencb (ch : Nat) (imm8 : Nat)
  | denc (ch : Nat)
  | ddecb (ch : Nat) (imm8 : Nat)
  | ddec (ch : Nat)
  deriving DecidableEq, Repr

/-- The `dir` operand of the pseudo-instruction DINIT (R81): `E` or `D`. -/
inductive DirLetter where
  | e
  | d
  deriving DecidableEq, Repr

/-- The pseudo-instructions of R81. -/
inductive Pseudo where
  | encode (ch src dst len : Nat)
  | encodec (ch src dst len cap : Nat)
  | decode (ch addr len : Nat)
  | dinit (ch : Nat) (dir : DirLetter) (d : Int)
  deriving DecidableEq, Repr

end Sys2Proof
end

