-- ==== Sys2Proof/WellFormed.lean ====
section
/-! DEFINITION. Which commands have an encoding: the operand ranges of 30_encoding.md R73 and R80
("An assembler rejects an immediate outside its range … and a channel outside 0..15"). -/

namespace Sys2Proof

/-- imm24: 0..16777215 (R73, R80). -/
def imm24Ok (v : Nat) : Bool := decide (v ≤ 16777215)

/-- imm8: 0..255 (R73, R80). -/
def imm8Ok (v : Nat) : Bool := decide (v ≤ 255)

/-- simm16: -32768..32767 (R73, R80). A distance outside 1..256 that fits is well-formed: the
hardware rejects it when the command runs (R80, R140). -/
def simm16Ok (d : Int) : Bool := decide (-32768 ≤ d) && decide (d ≤ 32767)

/-- ch: 0..15 (R73, R80). It is checked against NCH only when the command runs (R78). -/
def chOk (c : Nat) : Bool := decide (c ≤ 15)

/-- Every operand is in the range its field can hold. -/
def Instr.wellFormed : Instr → Bool
  | .nop => true
  | .setsrc v => imm24Ok v
  | .setdst v => imm24Ok v
  | .setlen v => imm24Ok v
  | .setcap v => imm24Ok v
  | .crcl v => imm8Ok v
  | .dinite c d => chOk c && simm16Ok d
  | .dinitd c d => chOk c && simm16Ok d
  | .drel c => chOk c
  | .dencb c x => chOk c && imm8Ok x
  | .denc c => chOk c
  | .ddecb c y => chOk c && imm8Ok y
  | .ddec c => chOk c

end Sys2Proof
end

