-- ==== Sys2Proof/Decode.lean ====
section
/-! DEFINITION. Decoding (30_encoding.md R70 to R79), total on every 32-bit word; the opcode map R74 as
rows of pattern and mask; the encoder (R72, R80); the expansion of the pseudo-instructions (R81). A
command is one word on the command port, not bytes in memory (R54, R64, R70), so the decoder reads a
word. -/

namespace Sys2Proof

/-- `w[lo+n-1 : lo]`, the field of `n` bits from bit `lo` up (R12). -/
def field (w : Word) (lo n : Nat) : BitVec n := w.extractLsb' lo n

/-- `op = w[31:28]` (R71). -/
def opField (w : Word) : Nat := (field w 28 4).toNat

/-- `ch = w[27:24]`, unsigned (R71, R73). -/
def chField (w : Word) : Nat := (field w 24 4).toNat

/-- `imm24 = w[23:0]`, unsigned (R73). -/
def imm24Field (w : Word) : Nat := (field w 0 24).toNat

/-- `imm8 = w[7:0]`, unsigned (R73). -/
def imm8Field (w : Word) : Nat := (field w 0 8).toNat

/-- `simm16 = sext_32(w[15:0])`, read as a two's-complement integer (R73). -/
def simm16Field (w : Word) : Int := (field w 0 16).toInt

/-- The `n` bits from bit `lo` up are all 0: the check of a reserved field (R72, R77). -/
def reservedZero (w : Word) (lo n : Nat) : Bool := field w lo n == 0

/-- The decode procedure (R75): the command a word stands for, or none where it is illegal. The
reserved fields are those R72 marks `0` in the row's format; opcodes 0xD, 0xE and 0xF are reserved
whatever the other bits (R76). The channel number is not checked here (R78). -/
def decode (w : Word) : Option Instr :=
  match opField w with
  | 0x0 => if reservedZero w 0 28 then some .nop else none
  | 0x1 => if reservedZero w 24 4 then some (.setsrc (imm24Field w)) else none
  | 0x2 => if reservedZero w 24 4 then some (.setdst (imm24Field w)) else none
  | 0x3 => if reservedZero w 24 4 then some (.setlen (imm24Field w)) else none
  | 0x4 => if reservedZero w 24 4 then some (.setcap (imm24Field w)) else none
  | 0x5 => if reservedZero w 8 20 then some (.crcl (imm8Field w)) else none
  | 0x6 => if reservedZero w 16 8 then some (.dinite (chField w) (simm16Field w)) else none
  | 0x7 => if reservedZero w 16 8 then some (.dinitd (chField w) (simm16Field w)) else none
  | 0x8 => if reservedZero w 0 24 then some (.drel (chField w)) else none
  | 0x9 => if reservedZero w 8 16 then some (.dencb (chField w) (imm8Field w)) else none
  | 0xA => if reservedZero w 0 24 then some (.denc (chField w)) else none
  | 0xB => if reservedZero w 8 16 then some (.ddecb (chField w) (imm8Field w)) else none
  | 0xC => if reservedZero w 0 24 then some (.ddec (chField w)) else none
  | _ => none

/-- Format N (R72): `oooo 0000 0000 0000 0000 0000 0000 0000`. -/
def formatN (op : BitVec 4) : Word := op ++ (0 : BitVec 28)

/-- Format I24 (R72): `oooo 0000 iiii iiii iiii iiii iiii iiii`. -/
def formatI24 (op : BitVec 4) (imm : Nat) : Word := op ++ (0 : BitVec 4) ++ BitVec.ofNat 24 imm

/-- Format B (R72): `oooo 0000 0000 0000 0000 0000 iiii iiii`. -/
def formatB (op : BitVec 4) (imm : Nat) : Word := op ++ (0 : BitVec 20) ++ BitVec.ofNat 8 imm

/-- Format CD (R72): `oooo cccc 0000 0000 iiii iiii iiii iiii`. -/
def formatCD (op : BitVec 4) (ch : Nat) (d : Int) : Word :=
  op ++ BitVec.ofNat 4 ch ++ (0 : BitVec 8) ++ BitVec.ofInt 16 d

/-- Format C (R72): `oooo cccc 0000 0000 0000 0000 0000 0000`. -/
def formatC (op : BitVec 4) (ch : Nat) : Word := op ++ BitVec.ofNat 4 ch ++ (0 : BitVec 24)

/-- Format CB (R72): `oooo cccc 0000 0000 0000 0000 iiii iiii`. -/
def formatCB (op : BitVec 4) (ch imm : Nat) : Word :=
  op ++ BitVec.ofNat 4 ch ++ (0 : BitVec 16) ++ BitVec.ofNat 8 imm

/-- The word of a well-formed command, from the opcodes of R74 and the formats of R72. -/
def encode : Instr → Word
  | .nop => formatN 0x0
  | .setsrc v => formatI24 0x1 v
  | .setdst v => formatI24 0x2 v
  | .setlen v => formatI24 0x3 v
  | .setcap v => formatI24 0x4 v
  | .crcl v => formatB 0x5 v
  | .dinite c d => formatCD 0x6 c d
  | .dinitd c d => formatCD 0x7 c d
  | .drel c => formatC 0x8 c
  | .dencb c x => formatCB 0x9 c x
  | .denc c => formatC 0xA c
  | .ddecb c y => formatCB 0xB c y
  | .ddec c => formatC 0xC c

/-- One row of the opcode map R74: it selects the words `w` with `w &&& mask = pattern` (the column
the spec calls `match`), and `command` reads the row's operands by R73. -/
structure OpcodeRow where
  pattern : Word
  mask : Word
  command : Word → Instr

/-- A word selects the row (R74). -/
def OpcodeRow.selects (r : OpcodeRow) (w : Word) : Prop := w &&& r.mask = r.pattern

/-- The opcode map R74, row by row, its `match` and `mask` columns as the spec prints them. -/
def opcodeMap : List OpcodeRow := [
  ⟨0x00000000, 0xFFFFFFFF, fun _ => .nop⟩,
  ⟨0x10000000, 0xFF000000, fun w => .setsrc (imm24Field w)⟩,
  ⟨0x20000000, 0xFF000000, fun w => .setdst (imm24Field w)⟩,
  ⟨0x30000000, 0xFF000000, fun w => .setlen (imm24Field w)⟩,
  ⟨0x40000000, 0xFF000000, fun w => .setcap (imm24Field w)⟩,
  ⟨0x50000000, 0xFFFFFF00, fun w => .crcl (imm8Field w)⟩,
  ⟨0x60000000, 0xF0FF0000, fun w => .dinite (chField w) (simm16Field w)⟩,
  ⟨0x70000000, 0xF0FF0000, fun w => .dinitd (chField w) (simm16Field w)⟩,
  ⟨0x80000000, 0xF0FFFFFF, fun w => .drel (chField w)⟩,
  ⟨0x90000000, 0xF0FFFF00, fun w => .dencb (chField w) (imm8Field w)⟩,
  ⟨0xA0000000, 0xF0FFFFFF, fun w => .denc (chField w)⟩,
  ⟨0xB0000000, 0xF0FFFF00, fun w => .ddecb (chField w) (imm8Field w)⟩,
  ⟨0xC0000000, 0xF0FFFFFF, fun w => .ddec (chField w)⟩]

/-- The commands a pseudo-instruction expands to, in order (R81). -/
def Pseudo.expand : Pseudo → List Instr
  | .encode ch src dst len => [.setsrc src, .setdst dst, .setlen len, .setcap len, .denc ch]
  | .encodec ch src dst len cap => [.setsrc src, .setdst dst, .setlen len, .setcap cap, .denc ch]
  | .decode ch addr len => [.setsrc addr, .setlen len, .ddec ch]
  | .dinit ch .e d => [.dinite ch d]
  | .dinit ch .d d => [.dinitd ch d]

/-- What the decoder reads from an instruction whose bits are `w`, numbered as the opcode table
numbers them. Every command is one 32-bit word (R70), so `nbits` is 32 in every row; the bits above
`nbits` are 0, and a number with a bit above bit 31 is no command word (log 12). -/
def decodeTableWord (nbits w : Nat) : Option Instr :=
  let v := w % 2 ^ nbits
  if v < 2 ^ 32 then decode (BitVec.ofNat 32 v) else none

end Sys2Proof
end

