-- ==== Sys2Proof/Machine/State.lean ====
section
/-! DEFINITION. The state of 10_state.md R20, the reset values of R39, and the ways a step could
stop. NCH is the length of `channels` and MEM_BYTES is `dmem.size` (logs 1 and 2), so a statement
about every state is a statement about every value of the two parameters. -/

namespace Sys2Proof.Machine

/-- DIR (R27): 0 for an encoder instance, 1 for a decoder instance. -/
inductive Dir where
  | encoder
  | decoder
  deriving DecidableEq, Repr

/-- One channel (R20, R25): a Delta State with its VALID and DIR bits. -/
structure Channel where
  /-- VALID (R26): the channel holds a constructed filter instance. -/
  valid : Bool
  /-- DIR (R27). -/
  dir : Dir
  /-- DIST (R28): the lag distance, 9 bits. -/
  dist : BitVec 9
  /-- POS (R29): the cursor modulo 256. -/
  pos : BitVec 8
  /-- HIST (R30): the circular history of 256 bytes. -/
  hist : Vector Byte Config.histSize
  deriving DecidableEq, Repr

/-- A channel after reset (R39) or DREL (R144): every field 0. -/
def Channel.empty : Channel where
  valid := false
  dir := .encoder
  dist := 0
  pos := 0
  hist := Vector.replicate Config.histSize 0

/-- The error codes 1..7 of R200. Code 0 is success and is no constructor. -/
inductive ErrorCode where
  | illegalCommand
  | invalidChannel
  | invalidDistance
  | unconfigured
  | wrongDirection
  | bufferCapacity
  | addressRange
  deriving DecidableEq, Repr

/-- STATUS (R24): LAST, 4 bits, and STICKY, 1 bit. -/
structure Status where
  last : BitVec 4
  sticky : Bool
  deriving DecidableEq, Repr

/-- DMEM (R50): `size` is MEM_BYTES, `cells` lists the bytes something has written, by address,
strictly rising. An unlisted address has no entry of its own and reads as the free value of
`Config.powerUpByte` (log 3). -/
structure Memory where
  size : Nat
  cells : List Host.Cell
  deriving DecidableEq, Repr

/-- What the host does (R59, R60, R230, R36), each between commands: it writes a command word to the
command port, reads a register, reads or writes a DMEM byte, or asserts reset. -/
inductive HostAction where
  | command (w : Word)
  | readReg (n : BitVec 8)
  | readMem (a : Addr)
  | writeMem (a : Addr) (b : Byte)
  | reset
  deriving DecidableEq, Repr

/-- The DFC state (R20). The last field is the model's own: the host's list of what it will do, the
nearest first (R21, R238; log 4). -/
structure State where
  /-- CH (R25): the array of NCH channels. -/
  channels : List Channel
  /-- SRC (R22). -/
  src : Addr
  /-- DST (R22). -/
  dst : Addr
  /-- LEN (R22). -/
  len : Addr
  /-- CAP (R22). -/
  cap : Addr
  /-- RES (R23). -/
  res : Word
  /-- STATUS (R24). -/
  status : Status
  /-- DMEM (R50). -/
  dmem : Memory
  /-- The command sequence position (R21). -/
  cmdidx : Nat
  /-- What the host will do next, the nearest first (log 4). -/
  port : List HostAction
  deriving DecidableEq, Repr

/-- NCH (R10, R25). -/
def State.nch (s : State) : Nat := s.channels.length

/-- Why the machine could stop with a fault. It has no constructor: "an error never stops the block"
(R203) and the DFC takes no trap (R208), so no step ends in a fault (log 9). -/
inductive Fault where
  deriving DecidableEq, Repr

/-- Why the model could give an instruction no meaning. -/
inductive Refusal where
  /-- Raised by an arm of `exec` whose instruction has no meaning yet; no arm is in this state. Safe:
  the model stops where the hardware goes on. -/
  | notModelled (mnemonic : String)
  deriving DecidableEq, Repr

/-- The block after power-up reset (R39, R230) with the given NCH and MEM_BYTES: every channel and
register 0, DMEM listing nothing, cmdidx 0, nothing yet from the host. -/
def State.powerUp (nch memBytes : Nat) : State where
  channels := List.replicate nch Channel.empty
  src := 0
  dst := 0
  len := 0
  cap := 0
  res := 0
  status := ⟨0, false⟩
  dmem := ⟨memBytes, []⟩
  cmdidx := 0
  port := []

/-- The machine right after reset (R39), with the parameters of Config.lean (logs 1 and 2). -/
def State.reset : State := State.powerUp Config.resetNch Config.resetMemBytes

end Sys2Proof.Machine
end

