-- ==== Sys2Proof/Machine/Flags.lean ====
section
/-! DEFINITION. The DFC has no flags (10_state.md R38); STATUS is its only status state. The error
codes of R200, the two ways a command ends (R203, R204), and STATUS as the host reads it (R24). -/

namespace Sys2Proof.Machine

/-- The code of an error (R200). -/
def ErrorCode.code : ErrorCode → BitVec 4
  | .illegalCommand => 1
  | .invalidChannel => 2
  | .invalidDistance => 3
  | .unconfigured => 4
  | .wrongDirection => 5
  | .bufferCapacity => 6
  | .addressRange => 7

/-- STATUS after a command that raised no error (R204): LAST 0, STICKY unchanged. -/
def Status.succeeded (st : Status) : Status := { st with last := 0 }

/-- STATUS after a command that raised `e` (R203): LAST the code, STICKY 1. -/
def Status.failed (_ : Status) (e : ErrorCode) : Status := ⟨e.code, true⟩

/-- STATUS as a 32-bit word (R24): LAST in bits 3:0, STICKY in bit 8, every other bit 0. -/
def Status.word (st : Status) : Word :=
  (0 : BitVec 23) ++ BitVec.ofBool st.sticky ++ (0 : BitVec 4) ++ st.last

end Sys2Proof.Machine
end

