-- ==== Sys2Proof/Machine/Ops.lean ====
section
/-! DEFINITION. The operations every command shares: bytes modulo 256 (R13, R15), DMEM bytes (R50, R53),
channel history (R30, R160, R180), a chunk of byte steps (R61), and how a command ends: success (R204),
or an error, the DFC's only exception (R203). There is no trap entry and no return from one (R208,
R209). -/

namespace Sys2Proof.Machine

/-- `trunc_8(n)`: `n mod 256` for any integer (R13). -/
def trunc8 (n : Int) : Byte := BitVec.ofInt 8 n

/-! ## DMEM -/

/-- The byte listed at an address, or none. -/
def cellsGet : List Host.Cell → Nat → Option Byte
  | [], _ => none
  | (k, v) :: rest, a => if k = a then some v else cellsGet rest a

/-- The list with `b` at address `a`, kept strictly rising. -/
def cellsSet : List Host.Cell → Nat → Byte → List Host.Cell
  | [], a, b => [(a, b)]
  | (k, v) :: rest, a, b =>
    if a < k then (a, b) :: (k, v) :: rest
    else if a = k then (a, b) :: rest
    else (k, v) :: cellsSet rest a b

/-- `MemRead(a, 1)` (R14, R53). A byte nothing has written is the free value of power-up (R39, log 3). -/
def Memory.read (m : Memory) (a : Nat) : Byte := (cellsGet m.cells a).getD (Config.powerUpByte a)

/-- `MemWrite(a, 1, b)` (R14, R53). -/
def Memory.write (m : Memory) (a : Nat) (b : Byte) : Memory := { m with cells := cellsSet m.cells a b }

/-- The canonical form: the listed addresses rise strictly, and each names a byte of DMEM (R50). No
entry can equal what an unlisted address reads as, since that has no value in the list (log 3). -/
abbrev Memory.wf (m : Memory) : Prop :=
  m.cells.Pairwise (fun x y => x.1 < y.1) ∧ ∀ x ∈ m.cells, x.1 < m.size

/-! ## Channel history -/

/-- `CH[c].HIST[j]` (R14, R30). -/
def Channel.slot (c : Channel) (j : Byte) : Byte := c.hist[j.toNat]'j.isLt

/-- The lookback byte `CH[c].HIST[trunc_8(CH[c].DIST + CH[c].POS)]` (R160, R180). -/
def Channel.lookback (c : Channel) : Byte := c.slot (trunc8 (c.dist.toNat + c.pos.toNat))

/-- `HIST[POS] <- x` and then `POS <- trunc_8(POS - 1)` (R160, R180). -/
def Channel.store (c : Channel) (x : Byte) : Channel :=
  { c with hist := c.hist.set c.pos.toNat x c.pos.isLt, pos := trunc8 (c.pos.toNat - 1) }

/-- A freshly constructed instance (R141, R142). -/
def Channel.construct (dir : Dir) (dist : BitVec 9) : Channel where
  valid := true
  dir := dir
  dist := dist
  pos := 0
  hist := Vector.replicate Config.histSize 0

/-- Channel `ch` becomes `c`; every other channel stays (R25). -/
def State.setChannel (s : State) (ch : Nat) (c : Channel) : State :=
  { s with channels := s.channels.set ch c }

/-- `n` byte steps of a chunk (R61): byte `i` is read at `from + i`, run through the byte step, and
written at `to + i`, before byte `i + 1` is read. -/
def runChunk (byteStep : Channel → Byte → Channel × Byte) :
    Nat → Nat → Nat → Channel × Memory → Channel × Memory
  | 0, _, _, cm => cm
  | n + 1, a, b, (c, m) =>
    let r := byteStep c (m.read a)
    runChunk byteStep n (a + 1) (b + 1) (r.1, m.write b r.2)

/-! ## How a command ends -/

/-- Error effect (R203): STATUS, and the command count; nothing else. -/
def raiseError (e : ErrorCode) (s : State) : State :=
  { s with status := s.status.failed e, cmdidx := s.cmdidx + 1 }

/-- Success effect (R204), and the command count (R21). -/
def succeed (s : State) : State :=
  { s with status := s.status.succeeded, cmdidx := s.cmdidx + 1 }

/-- How a command that started in `s` ends: its body gives the written state, or the first error it
found, and then nothing it would have written is (R205). -/
def finish (s : State) : Except ErrorCode State → Host.Outcome State Fault Refusal
  | .ok t => .next (succeed t)
  | .error e => .next (raiseError e s)

end Sys2Proof.Machine
end

