-- ==== Sys2Proof/Machine/Operands.lean ====
section
/-! DEFINITION. The operand checks the commands share, each giving its value or the error of
60_exceptions.md R200, in the order of R201. -/

namespace Sys2Proof.Machine

/-- The channel an operand `ch` names; `ch ≥ NCH` is InvalidChannel (R78, R201 order 2). -/
def channelOperand (ch : Nat) (s : State) : Except ErrorCode Channel :=
  match s.channels[ch]? with
  | some c => .ok c
  | none => .error .invalidChannel

/-- The distance operand as the 9-bit field DIST; outside 1..256 it is InvalidDistance (R140, R201
order 3). -/
def distanceOperand (d : Int) : Except ErrorCode (BitVec 9) :=
  if d < Config.distMin ∨ Config.distMax < d then .error .invalidDistance else .ok (BitVec.ofInt 9 d)

/-- The channel of a data command: it exists, it is constructed, and its direction is the command's
(R26, R27, R201 orders 2, 4 and 5). -/
def dataChannel (ch : Nat) (dir : Dir) (s : State) : Except ErrorCode Channel :=
  match channelOperand ch s with
  | .error e => .error e
  | .ok c =>
    if c.valid = false then .error .unconfigured
    else if c.dir ≠ dir then .error .wrongDirection
    else .ok c

/-- A chunk of `n` bytes at `base` is in range: `n = 0`, or `base + n ≤ MEM_BYTES` as exact integers
(R55). -/
def chunkInRange (s : State) (base n : Addr) : Bool :=
  n.toNat = 0 || base.toNat + n.toNat ≤ s.dmem.size

end Sys2Proof.Machine
end

