-- ==== Sys2Proof/Machine/Control.lean ====
section
/-! DEFINITION. NOP and the operand-setup commands (40_control.md), and the end of a word that is no
command (30_encoding.md R75). -/

namespace Sys2Proof.Machine

/-- NOP (R100). -/
def execNop (s : State) : Host.Outcome State Fault Refusal := finish s (.ok s)

/-- SETSRC (R101). -/
def execSetsrc (imm24 : Nat) (s : State) : Host.Outcome State Fault Refusal :=
  finish s (.ok { s with src := BitVec.ofNat 24 imm24 })

/-- SETDST (R102). -/
def execSetdst (imm24 : Nat) (s : State) : Host.Outcome State Fault Refusal :=
  finish s (.ok { s with dst := BitVec.ofNat 24 imm24 })

/-- SETLEN (R103). -/
def execSetlen (imm24 : Nat) (s : State) : Host.Outcome State Fault Refusal :=
  finish s (.ok { s with len := BitVec.ofNat 24 imm24 })

/-- SETCAP (R104). -/
def execSetcap (imm24 : Nat) (s : State) : Host.Outcome State Fault Refusal :=
  finish s (.ok { s with cap := BitVec.ofNat 24 imm24 })

/-- A word that matches no row of the opcode map (R75 to R77, R201 order 1). -/
def execIllegal (s : State) : Host.Outcome State Fault Refusal := finish s (.error .illegalCommand)

end Sys2Proof.Machine
end

