-- ==== Sys2Proof/Machine/DeltaConfig.lean ====
section
/-! DEFINITION. Construction and release of a delta filter instance (42_delta_config.md). -/

namespace Sys2Proof.Machine

/-- The body of a construction (R141, R142): the channel check, the distance check (R140), then every
field of the channel is written, whatever it held (R143). -/
def constructBody (dir : Dir) (ch : Nat) (d : Int) (s : State) : Except ErrorCode State :=
  match channelOperand ch s with
  | .error e => .error e
  | .ok _ =>
    match distanceOperand d with
    | .error e => .error e
    | .ok dist => .ok (s.setChannel ch (Channel.construct dir dist))

/-- DINITE (R141). -/
def execDinite (ch : Nat) (simm16 : Int) (s : State) : Host.Outcome State Fault Refusal :=
  finish s (constructBody .encoder ch simm16 s)

/-- DINITD (R142). -/
def execDinitd (ch : Nat) (simm16 : Int) (s : State) : Host.Outcome State Fault Refusal :=
  finish s (constructBody .decoder ch simm16 s)

/-- The body of DREL (R144): every field of the channel to 0, whether or not it held an instance. -/
def releaseBody (ch : Nat) (s : State) : Except ErrorCode State :=
  match channelOperand ch s with
  | .error e => .error e
  | .ok _ => .ok (s.setChannel ch Channel.empty)

/-- DREL (R144). -/
def execDrel (ch : Nat) (s : State) : Host.Outcome State Fault Refusal := finish s (releaseBody ch s)

end Sys2Proof.Machine
end

