-- ==== Sys2Proof/Machine/DeltaDecoder.lean ====
section
/-! DEFINITION. The delta decoder (44_delta_decoder.md): its byte step, DDECB and DDEC. -/

namespace Sys2Proof.Machine

/-- DecStep (R180): the lookback is read before the reconstructed byte `trunc_8(y + t)` is stored and
answered. -/
def decStep (c : Channel) (y : Byte) : Channel × Byte :=
  let t := c.lookback
  let x := trunc8 (y.toNat + t.toNat)
  (c.store x, x)

/-- The body of DDECB (R183). -/
def ddecbBody (ch imm8 : Nat) (s : State) : Except ErrorCode State :=
  match dataChannel ch .decoder s with
  | .error e => .error e
  | .ok c =>
    let r := decStep c (BitVec.ofNat 8 imm8)
    .ok { s.setChannel ch r.1 with res := r.2.setWidth 32 }

/-- DDECB (R183). -/
def execDdecb (ch imm8 : Nat) (s : State) : Host.Outcome State Fault Refusal :=
  finish s (ddecbBody ch imm8 s)

/-- The body of DDEC (R184 to R186): the range of the one chunk, then LEN byte steps in place. DST and
CAP are not read. -/
def ddecBody (ch : Nat) (s : State) : Except ErrorCode State :=
  match dataChannel ch .decoder s with
  | .error e => .error e
  | .ok c =>
    if chunkInRange s s.src s.len = false then .error .addressRange
    else
      let r := runChunk decStep s.len.toNat s.src.toNat s.src.toNat (c, s.dmem)
      .ok { s.setChannel ch r.1 with dmem := r.2 }

/-- DDEC (R186). -/
def execDdec (ch : Nat) (s : State) : Host.Outcome State Fault Refusal := finish s (ddecBody ch s)

end Sys2Proof.Machine
end

