-- ==== Sys2Proof/Machine/DeltaEncoder.lean ====
section
/-! DEFINITION. The delta encoder (43_delta_encoder.md): its byte step, DENCB and DENC. -/

namespace Sys2Proof.Machine

/-- EncStep (R160): the lookback is read before the original byte is stored; the answer is
`trunc_8(x - t)`. -/
def encStep (c : Channel) (x : Byte) : Channel × Byte :=
  let t := c.lookback
  (c.store x, trunc8 (x.toNat - t.toNat))

/-- The body of DENCB (R163). -/
def dencbBody (ch imm8 : Nat) (s : State) : Except ErrorCode State :=
  match dataChannel ch .encoder s with
  | .error e => .error e
  | .ok c =>
    let r := encStep c (BitVec.ofNat 8 imm8)
    .ok { s.setChannel ch r.1 with res := r.2.setWidth 32 }

/-- DENCB (R163). -/
def execDencb (ch imm8 : Nat) (s : State) : Host.Outcome State Fault Refusal :=
  finish s (dencbBody ch imm8 s)

/-- The body of DENC (R164, R166): capacity, source range and destination range, then LEN byte steps. -/
def dencBody (ch : Nat) (s : State) : Except ErrorCode State :=
  match dataChannel ch .encoder s with
  | .error e => .error e
  | .ok c =>
    if s.cap < s.len then .error .bufferCapacity
    else if chunkInRange s s.src s.len = false then .error .addressRange
    else if chunkInRange s s.dst s.len = false then .error .addressRange
    else
      let r := runChunk encStep s.len.toNat s.src.toNat s.dst.toNat (c, s.dmem)
      .ok { s.setChannel ch r.1 with dmem := r.2 }

/-- DENC (R166). -/
def execDenc (ch : Nat) (s : State) : Host.Outcome State Fault Refusal := finish s (dencBody ch s)

end Sys2Proof.Machine
end

