-- ==== Sys2Proof/Machine/Dispatch.lean ====
section
/-! DEFINITION. Every command's meaning, one arm a constructor of Instr. -/

namespace Sys2Proof.Machine

/-- The effect of one decoded command (R74, last column). -/
def exec (i : Instr) (s : State) : Host.Outcome State Fault Refusal :=
  match i with
  | .nop => Sys2Proof.Machine.execNop s
  | .setsrc imm24 => Sys2Proof.Machine.execSetsrc imm24 s
  | .setdst imm24 => Sys2Proof.Machine.execSetdst imm24 s
  | .setlen imm24 => Sys2Proof.Machine.execSetlen imm24 s
  | .setcap imm24 => Sys2Proof.Machine.execSetcap imm24 s
  | .crcl imm8 => Sys2Proof.Machine.execCrcl imm8 s
  | .dinite ch simm16 => Sys2Proof.Machine.execDinite ch simm16 s
  | .dinitd ch simm16 => Sys2Proof.Machine.execDinitd ch simm16 s
  | .drel ch => Sys2Proof.Machine.execDrel ch s
  | .dencb ch imm8 => Sys2Proof.Machine.execDencb ch imm8 s
  | .denc ch => Sys2Proof.Machine.execDenc ch s
  | .ddecb ch imm8 => Sys2Proof.Machine.execDdecb ch imm8 s
  | .ddec ch => Sys2Proof.Machine.execDdec ch s

end Sys2Proof.Machine
end

