-- ==== Sys2Proof/Machine/HostAccess.lean ====
section
/-! DEFINITION. What the host can do beside writing commands: the register views and reads (10_state.md
R34 to R36), DMEM reads and writes (20_memory.md R59), reset (70_reset_and_hazards.md R230), and the
list of the host's actions the step takes from (10_state.md R21, R238). -/

namespace Sys2Proof.Machine

/-- DIR as the bit of CHCFG (R27, R34). -/
def Dir.bit : Dir → BitVec 1
  | .encoder => 0
  | .decoder => 1

/-- CHCFG (R34): DIST in bits 8:0, DIR in bit 9, VALID in bit 10, every other bit 0. -/
def Channel.cfgWord (c : Channel) : Word :=
  (0 : BitVec 21) ++ BitVec.ofBool c.valid ++ c.dir.bit ++ c.dist

/-- PARAM (R35): NCH in bits 4:0, 0 in bits 7:5, MEM_BYTES - 1 in bits 31:8. -/
def State.paramWord (s : State) : Word :=
  BitVec.ofNat 24 (s.dmem.size - 1) ++ (0 : BitVec 3) ++ BitVec.ofNat 5 s.nch

/-- `ReadReg(n)` (R36). It changes no state. -/
def State.readReg (s : State) (n : BitVec 8) : Word :=
  if n = 0x00 then s.status.word
  else if n = 0x01 then s.res
  else if n = 0x02 then s.src.setWidth 32
  else if n = 0x03 then s.dst.setWidth 32
  else if n = 0x04 then s.len.setWidth 32
  else if n = 0x05 then s.cap.setWidth 32
  else if n = 0x06 then s.paramWord
  else if n.toNat < 0x10 then 0
  else
    match s.channels[n.toNat - 0x10]? with
    | some c => c.cfgWord
    | none => 0

/-- `ReadMem(a)` (R59): the byte, or 0 where `a` names none. It changes no state. -/
def State.readMem (s : State) (a : Addr) : Byte :=
  if a.toNat < s.dmem.size then s.dmem.read a.toNat else 0

/-- `WriteMem(a, b)` (R59): nothing happens where `a` names no byte. -/
def State.writeMem (s : State) (a : Addr) (b : Byte) : State :=
  if a.toNat < s.dmem.size then { s with dmem := s.dmem.write a.toNat b } else s

/-- Reset (R230): every state element to its value of R39, with the same NCH and MEM_BYTES; DMEM
unchanged. What the host has yet to do is the host's and stays (log 7). -/
def State.hostReset (s : State) : State :=
  { State.powerUp s.nch s.dmem.size with dmem := s.dmem, port := s.port }

/-- The value an action gives back to the host, read before the action takes effect (R36, R59). Reads
change no state (log 6). -/
def HostAction.reply (s : State) : HostAction → Option Word
  | .command _ => none
  | .readReg n => some (s.readReg n)
  | .readMem a => some ((s.readMem a).setWidth 32)
  | .writeMem _ _ => none
  | .reset => none

/-- The host's next action and the state with that action taken off the list (R60). -/
def State.takeAction (s : State) : Option (HostAction × State) :=
  match s.port with
  | [] => none
  | a :: rest => some (a, { s with port := rest })

/-- The command words of the current run the host has yet to write: those before the next reset, after
which cmdidx counts from 0 again (R21, R238; log 13). -/
def commandsLeft : List HostAction → Nat
  | [] => 0
  | .command _ :: rest => commandsLeft rest + 1
  | .readReg _ :: rest => commandsLeft rest
  | .readMem _ :: rest => commandsLeft rest
  | .writeMem _ _ :: rest => commandsLeft rest
  | .reset :: _ => 0

/-- The length of the current run's list of command words (R21, R238): those already run, which cmdidx
counts, and those left. -/
def State.runLength (s : State) : Nat := s.cmdidx + commandsLeft s.port

/-- The state with a command word put where the next step takes it. -/
def State.deliver (s : State) (w : Word) : State := { s with port := .command w :: s.port }

end Sys2Proof.Machine
end

