-- ==== Sys2Proof/Machine/Port.lean ====
section
/-! DEFINITION. The effect of one action of the host (20_memory.md R59, R60). -/

namespace Sys2Proof.Machine

/-- The effect of one command word (R75): the command it decodes to, or IllegalCommand. -/
def runWord (w : Word) (s : State) : Host.Outcome State Fault Refusal :=
  match decode w with
  | some i => exec i s
  | none => execIllegal s

/-- The effect of one action of the host, whole (R60). The value a read gives back is
`HostAction.reply`. -/
def act (a : HostAction) (s : State) : Host.Outcome State Fault Refusal :=
  match a with
  | .command w => runWord w s
  | .readReg _ => .next s
  | .readMem _ => .next s
  | .writeMem a b => .next (s.writeMem a b)
  | .reset => .next s.hostReset

end Sys2Proof.Machine
end

