-- ==== Sys2Proof/Machine/Step.lean ====
section
/-! DEFINITION. One step: the next action of the host's list (10_state.md R21, 20_memory.md R60). -/

namespace Sys2Proof.Machine

/-- One step: the host's next action, taken off its list, has its effect. When the list is empty the
block is idle, holding all state (R216; log 5). Where a run ends is `State.runEnded` (R238). -/
def step (s : State) : Host.Outcome State Fault Refusal :=
  match s.takeAction with
  | none => .next s
  | some (a, t) => act a t

/-- `s` with the instruction's word put at the head of the host's list, so that the next step runs it
(log 4). A command is one 32-bit word (R70); the bits above `nbits` are 0. -/
def State.withFetchWord (s : State) (nbits w : Nat) : State :=
  s.deliver (BitVec.ofNat 32 (w % 2 ^ nbits))

end Sys2Proof.Machine
end

