-- ==== Sys2Proof/Machine/Assembler.lean ====
section
/-! DEFINITION. The assembler's reading of one line of text (30_encoding.md R80, R81). Text is a list of
characters. What R80 does not say (spaces, blank lines, digit case, the directive `.word`) is log 10. -/

namespace Sys2Proof.Machine

/-- A space or tab between tokens (log 10). -/
def isBlank (c : Char) : Bool := c == ' ' || c == '\t'

/-- The text without blanks at either end (log 10). -/
def trimBlanks (l : List Char) : List Char := ((l.dropWhile isBlank).reverse.dropWhile isBlank).reverse

/-- The line up to a `;` (R80: "`;` starts a comment to the end of the line"). -/
def stripComment (l : List Char) : List Char := l.takeWhile (fun c => !(c == ';'))

/-- A letter read without regard to case (R80: "Mnemonics are case-insensitive"). -/
def upperLetter (c : Char) : Char := c.toUpper

/-- The value of a decimal digit. -/
def decDigit (c : Char) : Option Nat :=
  if 48 ≤ c.toNat ∧ c.toNat ≤ 57 then some (c.toNat - 48) else none

/-- The value of a hexadecimal digit, of either case (log 10). -/
def hexDigit (c : Char) : Option Nat :=
  if 48 ≤ c.toNat ∧ c.toNat ≤ 57 then some (c.toNat - 48)
  else if 65 ≤ c.toNat ∧ c.toNat ≤ 70 then some (c.toNat - 55)
  else if 97 ≤ c.toNat ∧ c.toNat ≤ 102 then some (c.toNat - 87)
  else none

/-- Digits read most significant first, added to `acc`. -/
def readDigits (base : Nat) (digit : Char → Option Nat) : List Char → Nat → Option Nat
  | [], acc => some acc
  | c :: rest, acc =>
    match digit c with
    | some v => readDigits base digit rest (acc * base + v)
    | none => none

/-- A decimal number: a channel operand (R80). -/
def readDec : List Char → Option Nat
  | [] => none
  | l => readDigits 10 decDigit l 0

/-- An unsigned immediate: decimal, or hexadecimal after `0x` (R80). -/
def readImm : List Char → Option Nat
  | ['0', 'x'] => none
  | '0' :: 'x' :: l => readDigits 16 hexDigit l 0
  | l => readDec l

/-- A signed immediate, with a leading `-` when negative (R80). -/
def readSigned : List Char → Option Int
  | '-' :: l => (readImm l).map (fun n => -(n : Int))
  | l => (readImm l).map (fun n => (n : Int))

/-- The parts of a text between commas, each trimmed. -/
def splitCommas : List Char → List Char → List (List Char)
  | [], cur => [trimBlanks cur.reverse]
  | c :: rest, cur => if c == ',' then trimBlanks cur.reverse :: splitCommas rest [] else splitCommas rest (c :: cur)

/-- The operands after a mnemonic, separated by commas (R80). -/
def readOperands (l : List Char) : List (List Char) :=
  let t := trimBlanks l
  if t.isEmpty then [] else splitCommas t []

/-- A command with one immediate. -/
def asmImm (f : Nat → Instr) : List (List Char) → Option (List Instr)
  | [a] => (readImm a).map (fun v => [f v])
  | _ => none

/-- A command with a channel. -/
def asmCh (f : Nat → Instr) : List (List Char) → Option (List Instr)
  | [a] => (readDec a).map (fun c => [f c])
  | _ => none

/-- A command with a channel and an unsigned immediate. -/
def asmChImm (f : Nat → Nat → Instr) : List (List Char) → Option (List Instr)
  | [a, b] => (readDec a).bind (fun c => (readImm b).map (fun v => [f c v]))
  | _ => none

/-- A command with a channel and a signed immediate. -/
def asmChSigned (f : Nat → Int → Instr) : List (List Char) → Option (List Instr)
  | [a, b] => (readDec a).bind (fun c => (readSigned b).map (fun d => [f c d]))
  | _ => none

/-- The letter of DINIT's direction operand (R81), of either case (log 10). -/
def readDir : List Char → Option DirLetter
  | [c] => if upperLetter c == 'E' then some .e else if upperLetter c == 'D' then some .d else none
  | _ => none

/-- A pseudo-instruction's commands (R81). -/
def asmEncode : List (List Char) → Option (List Instr)
  | [a, b, c, d] =>
    (readDec a).bind fun ch => (readImm b).bind fun src => (readImm c).bind fun dst =>
      (readImm d).map fun len => (Pseudo.encode ch src dst len).expand
  | _ => none

/-- ENCODEC (R81). -/
def asmEncodec : List (List Char) → Option (List Instr)
  | [a, b, c, d, e] =>
    (readDec a).bind fun ch => (readImm b).bind fun src => (readImm c).bind fun dst =>
      (readImm d).bind fun len => (readImm e).map fun cap => (Pseudo.encodec ch src dst len cap).expand
  | _ => none

/-- DECODE (R81). -/
def asmDecode : List (List Char) → Option (List Instr)
  | [a, b, c] =>
    (readDec a).bind fun ch => (readImm b).bind fun addr => (readImm c).map fun len =>
      (Pseudo.decode ch addr len).expand
  | _ => none

/-- DINIT (R81). -/
def asmDinit : List (List Char) → Option (List Instr)
  | [a, b, c] =>
    (readDec a).bind fun ch => (readDir b).bind fun dir => (readSigned c).map fun d =>
      (Pseudo.dinit ch dir d).expand
  | _ => none

/-- The commands a mnemonic and its operands stand for, ranges not yet checked (R80, R81). -/
def asmMnemonic (m : List Char) (ops : List (List Char)) : Option (List Instr) :=
  if m == ['N', 'O', 'P'] then (if ops.isEmpty then some [.nop] else none)
  else if m == ['S', 'E', 'T', 'S', 'R', 'C'] then asmImm .setsrc ops
  else if m == ['S', 'E', 'T', 'D', 'S', 'T'] then asmImm .setdst ops
  else if m == ['S', 'E', 'T', 'L', 'E', 'N'] then asmImm .setlen ops
  else if m == ['S', 'E', 'T', 'C', 'A', 'P'] then asmImm .setcap ops
  else if m == ['C', 'R', 'C', 'L'] then asmImm .crcl ops
  else if m == ['D', 'I', 'N', 'I', 'T', 'E'] then asmChSigned .dinite ops
  else if m == ['D', 'I', 'N', 'I', 'T', 'D'] then asmChSigned .dinitd ops
  else if m == ['D', 'R', 'E', 'L'] then asmCh .drel ops
  else if m == ['D', 'E', 'N', 'C', 'B'] then asmChImm .dencb ops
  else if m == ['D', 'E', 'N', 'C'] then asmCh .denc ops
  else if m == ['D', 'D', 'E', 'C', 'B'] then asmChImm .ddecb ops
  else if m == ['D', 'D', 'E', 'C'] then asmCh .ddec ops
  else if m == ['E', 'N', 'C', 'O', 'D', 'E'] then asmEncode ops
  else if m == ['E', 'N', 'C', 'O', 'D', 'E', 'C'] then asmEncodec ops
  else if m == ['D', 'E', 'C', 'O', 'D', 'E'] then asmDecode ops
  else if m == ['D', 'I', 'N', 'I', 'T'] then asmDinit ops
  else none

/-- The word of the directive `.word`, which R80 does not give: the listing of program P3
(95_test_vectors.md section 3) uses it and says that it "writes a raw word, for an encoding no mnemonic
has". DESIGN CHOICE (log 10): one operand, an unsigned immediate as R80 writes it, 0..0xFFFFFFFF. -/
def asmWord : List (List Char) → Option (List Word)
  | [a] => (readImm a).bind fun v => if v < 2 ^ 32 then some [BitVec.ofNat 32 v] else none
  | _ => none

/-- The command words of one line, or none where the assembler rejects it: an unknown mnemonic, a wrong
operand, or an operand outside its range (R80). A line with nothing but a comment gives no word. -/
def assembleLine (line : List Char) : Option (List Word) :=
  let t := trimBlanks (stripComment line)
  if t.isEmpty then some []
  else
    let m := (t.takeWhile (fun c => !isBlank c)).map upperLetter
    let ops := readOperands (t.dropWhile (fun c => !isBlank c))
    if m == ['.', 'W', 'O', 'R', 'D'] then asmWord ops
    else
      match asmMnemonic m ops with
      | some is => if is.all Instr.wellFormed then some (is.map encode) else none
      | none => none

/-- The command words of a program's lines, in order. -/
def assemble : List (List Char) → Option (List Word)
  | [] => some []
  | l :: rest => (assembleLine l).bind fun ws => (assemble rest).map fun vs => ws ++ vs

end Sys2Proof.Machine
end

