-- ==== Sys2Proof/Safety.lean ====
section
/-! DEFINITION. The terms in which claims are stated: the state invariant, how a command that fails or
succeeds leaves STATUS and cmdidx, the order of the checks (60_exceptions.md R201), runs of one channel
(10_state.md R31), and what makes a run a success (70_reset_and_hazards.md R238). -/

namespace Sys2Proof.Machine

/-- A channel is legal: while VALID its DIST is in 1..256 (R28); while not VALID it is all 0, since only
reset and DREL clear VALID (R26, R28, R144). -/
abbrev Channel.ok (c : Channel) : Prop :=
  (c.valid = true → 1 ≤ c.dist.toNat ∧ c.dist.toNat ≤ 256) ∧ (c.valid = false → c = Channel.empty)

/-- STATUS is legal: LAST is 0..7 (R24), and an error code in LAST comes with STICKY (R203). -/
abbrev Status.ok (st : Status) : Prop := st.last.toNat ≤ 7 ∧ (st.last ≠ 0 → st.sticky = true)

/-- The invariant of the machine: the parameters are legal (R10), DMEM is in canonical form with every
listed address below MEM_BYTES (R50), every channel is legal, and STATUS is legal. -/
abbrev State.Inv (s : State) : Prop :=
  1 ≤ s.nch ∧ s.nch ≤ Config.nchMax ∧ 1 ≤ s.dmem.size ∧ s.dmem.size ≤ Config.memBytesMax ∧ s.dmem.wf ∧
    (∀ c ∈ s.channels, c.ok) ∧ s.status.ok

/-- The run has ended: cmdidx equals the length of its list of command words (R21, R238). A host access
after the last command, or a reset, is no part of the run. -/
def State.runEnded (s : State) : Prop := s.cmdidx = s.runLength

/-- A run from one state to the state at its end (R238), with the code each of its commands left in LAST,
in order: each command and each host access between them is one step, and the run goes on until it has
ended and no further. -/
inductive RunTo : State → List (BitVec 4) → State → Prop where
  | ended {s : State} : s.runEnded → RunTo s [] s
  | command {s t u : State} {w : Word} {rest : List HostAction} {codes : List (BitVec 4)} :
      s.port = .command w :: rest → step s = .next t → RunTo t codes u →
      RunTo s (t.status.last :: codes) u
  | access {s t u : State} {a : HostAction} {rest : List HostAction} {codes : List (BitVec 4)} :
      ¬ s.runEnded → s.port = a :: rest → (∀ w, a ≠ .command w) → step s = .next t → RunTo t codes u →
      RunTo s codes u

/-- No command since reset raised an error: "a claim that a run succeeds must take STICKY = 0 in the
final state as its premise" (R238). -/
def State.noError (s : State) : Prop := s.status.sticky = false

/-- The state an error with this code leaves (R203), written out. -/
def State.afterError (s : State) (code : BitVec 4) : State :=
  { s with status := { last := code, sticky := true }, cmdidx := s.cmdidx + 1 }

/-- What every success leaves beside the command's own writes (R204, R21), written out. -/
def State.afterSuccess (s : State) : State :=
  { s with status := { last := 0, sticky := s.status.sticky }, cmdidx := s.cmdidx + 1 }

/-- The channel a command names (formats CD, C and CB of R72). -/
def namedChannel : Instr → Option Nat
  | .nop => none
  | .setsrc _ => none
  | .setdst _ => none
  | .setlen _ => none
  | .setcap _ => none
  | .crcl _ => none
  | .dinite ch _ => some ch
  | .dinitd ch _ => some ch
  | .drel ch => some ch
  | .dencb ch _ => some ch
  | .denc ch => some ch
  | .ddecb ch _ => some ch
  | .ddec ch => some ch

/-- The channel a data command names (R26: DENCB, DENC, DDECB, DDEC) and the DIR it needs (R27). -/
def dataDir : Instr → Option (Nat × Dir)
  | .dencb ch _ => some (ch, .encoder)
  | .denc ch => some (ch, .encoder)
  | .ddecb ch _ => some (ch, .decoder)
  | .ddec ch => some (ch, .decoder)
  | .nop => none
  | .setsrc _ => none
  | .setdst _ => none
  | .setlen _ => none
  | .setcap _ => none
  | .crcl _ => none
  | .dinite _ _ => none
  | .dinitd _ _ => none
  | .drel _ => none

/-- A chunk is out of range (R55, as exact integers). -/
def outOfRange (s : State) (base n : Addr) : Prop :=
  0 < n.toNat ∧ s.dmem.size < base.toNat + n.toNat

/-- The checks 2 to 8 of R201 as rows of their code and the case in which they fail; a check that does
not apply to the command never fails. -/
def failedChecks (i : Instr) (s : State) : List (BitVec 4 × Prop) := [
  (2, ∃ ch, namedChannel i = some ch ∧ s.nch ≤ ch),
  (3, ∃ ch d, (i = .dinite ch d ∨ i = .dinitd ch d) ∧ ¬ (1 ≤ d ∧ d ≤ 256)),
  (4, ∃ ch dir c, dataDir i = some (ch, dir) ∧ s.channels[ch]? = some c ∧ c.valid = false),
  (5, ∃ ch dir c, dataDir i = some (ch, dir) ∧ s.channels[ch]? = some c ∧ c.dir ≠ dir),
  (6, (∃ ch, i = .denc ch) ∧ s.cap.toNat < s.len.toNat),
  (7, (∃ ch, i = .denc ch ∨ i = .ddec ch) ∧ outOfRange s s.src s.len),
  (7, (∃ ch, i = .denc ch) ∧ outOfRange s s.dst s.len)]

/-- `code` is the code of the first row whose case holds, or 0 when none does (R201: "the first check
that fails, in this order"). -/
def firstCode : List (BitVec 4 × Prop) → BitVec 4 → Prop
  | [], code => code = 0
  | (k, p) :: rest, code => (p ∧ code = k) ∨ (¬ p ∧ firstCode rest code)

/-- `n` DMEM bytes from address `a` up. -/
def Memory.bytes (m : Memory) (a n : Nat) : List Byte := (List.range n).map (fun i => m.read (a + i))

/-- The bytes a DENC from `s` to `t` reads, in order (R165): where the destination starts above the
source, a byte at or beyond the destination's start has been written by an earlier step when it is
read, and holds what it holds at the end; every other byte is as it was at the start. -/
def dencReads (s t : State) : List Byte :=
  (List.range s.len.toNat).map fun i =>
    if s.src.toNat < s.dst.toNat ∧ s.dst.toNat ≤ s.src.toNat + i then t.dmem.read (s.src.toNat + i)
    else s.dmem.read (s.src.toNat + i)

/-- A run of encoder channel `c` from one state to another, with the bytes of its encoder byte steps and
the bytes they gave, in order, "across all DENCB and DENC commands" (R161). Whatever else happens
between two of them leaves the channel as it was (`other`): commands on other channels, commands that
name none, host accesses, failing commands. -/
inductive EncRun (c : Nat) : State → List Byte → List Byte → State → Prop where
  | done (s : State) : EncRun c s [] [] s
  | other {s t u : State} {xs ys : List Byte} :
      t.channels[c]? = s.channels[c]? → EncRun c t xs ys u → EncRun c s xs ys u
  | byte {s t u : State} {xs ys : List Byte} (x : Byte) :
      exec (.dencb c x.toNat) s = .next t → t.status.last = 0 → EncRun c t xs ys u →
      EncRun c s (x :: xs) (t.res.setWidth 8 :: ys) u
  | chunk {s t u : State} {xs ys : List Byte} :
      exec (.denc c) s = .next t → t.status.last = 0 → EncRun c t xs ys u →
      EncRun c s (dencReads s t ++ xs) (t.dmem.bytes s.dst.toNat s.len.toNat ++ ys) u

/-- A run of decoder channel `c`, with the bytes fed to its decoder byte steps and the bytes they gave,
"across all DDECB and DDEC commands" (R181). -/
inductive DecRun (c : Nat) : State → List Byte → List Byte → State → Prop where
  | done (s : State) : DecRun c s [] [] s
  | other {s t u : State} {ys xs : List Byte} :
      t.channels[c]? = s.channels[c]? → DecRun c t ys xs u → DecRun c s ys xs u
  | byte {s t u : State} {ys xs : List Byte} (y : Byte) :
      exec (.ddecb c y.toNat) s = .next t → t.status.last = 0 → DecRun c t ys xs u →
      DecRun c s (y :: ys) (t.res.setWidth 8 :: xs) u
  | chunk {s t u : State} {ys xs : List Byte} :
      exec (.ddec c) s = .next t → t.status.last = 0 → DecRun c t ys xs u →
      DecRun c s (s.dmem.bytes s.src.toNat s.len.toNat ++ ys)
        (t.dmem.bytes s.src.toNat s.len.toNat ++ xs) u

/-- Channel `c` holds a fresh instance with distance `d`, as a construction leaves it (R141, R142). -/
def State.fresh (s : State) (c : Nat) (dir : Dir) (d : Nat) : Prop :=
  1 ≤ d ∧ d ≤ 256 ∧
    s.channels[c]? = some ⟨true, dir, BitVec.ofNat 9 d, 0, Vector.replicate 256 0⟩

/-- The byte `k - d` places back in a stream, 0 before its start (R161, R181: "`x_j = 0` for `j < 0`"). -/
def lagged (xs : List Byte) (d k : Nat) : Byte := if d ≤ k then xs.getD (k - d) 0 else 0

/-- What POS and HIST are after the original bytes `xs` (R31): POS is `trunc_8(-n)`, and slot `j` holds
`x_k` for the largest `k < n` with `trunc_8(-k) = j`, or 0 where there is none. -/
def Channel.historyIs (h : Channel) (xs : List Byte) : Prop :=
  h.pos = BitVec.ofInt 8 (-(xs.length : Int)) ∧
  ∀ j : Byte,
    (∀ k : Nat, k < xs.length → BitVec.ofInt 8 (-(k : Int)) = j →
      (∀ k' : Nat, k < k' → k' < xs.length → BitVec.ofInt 8 (-(k' : Int)) ≠ j) →
      h.slot j = xs.getD k 0) ∧
    ((∀ k : Nat, k < xs.length → BitVec.ofInt 8 (-(k : Int)) ≠ j) → h.slot j = 0)

/-- The original bytes of channel `c` after command `i` took `s` to `t`, when they were `xs` before (R31):
a successful construction or DREL starts with none (R141, R142, R144), a successful data command appends
the original byte of each of its steps, a failing command and any other leaves them. -/
def commandStream (c : Nat) (i : Instr) (s t : State) (xs : List Byte) : List Byte :=
  if t.status.last ≠ 0 then xs
  else
    match i with
    | .nop => xs
    | .setsrc _ => xs
    | .setdst _ => xs
    | .setlen _ => xs
    | .setcap _ => xs
    | .crcl _ => xs
    | .dinite ch _ => if ch = c then [] else xs
    | .dinitd ch _ => if ch = c then [] else xs
    | .drel ch => if ch = c then [] else xs
    | .dencb ch x => if ch = c then xs ++ [BitVec.ofNat 8 x] else xs
    | .denc ch => if ch = c then xs ++ dencReads s t else xs
    | .ddecb ch _ => if ch = c then xs ++ [t.res.setWidth 8] else xs
    | .ddec ch => if ch = c then xs ++ t.dmem.bytes s.src.toNat s.len.toNat else xs

/-- The original bytes of channel `c` after a step from `s` to `t`: a reset starts with none (R39). -/
def stepStream (c : Nat) (s t : State) (xs : List Byte) : List Byte :=
  match s.port with
  | [] => xs
  | .command w :: _ =>
    match decode w with
    | some i => commandStream c i s t xs
    | none => xs
  | .readReg _ :: _ => xs
  | .readMem _ :: _ => xs
  | .writeMem _ _ :: _ => xs
  | .reset :: _ => []

/-- Commands run one after another. -/
def execAll : List Instr → State → Host.Outcome State Fault Refusal
  | [], s => .next s
  | i :: rest, s =>
    match exec i s with
    | .next t => execAll rest t
    | .fault r => .fault r
    | .refused r => .refused r

end Sys2Proof.Machine
end

