-- ==== Sys2Proof/Certificates/Slice0/Obligations.lean ====
section
/-! DEFINITION. The statements for the provers, each from the spec's numbered rules. -/

open Sys2Proof Sys2Proof.Machine

/-! ## Encoding -/

/-- 30_encoding.md R72, R73, R74, R80: no bit of a well-formed command is lost between its word and the
decoder. -/
def Obligations.DecodeOfEncodeGivesInstr : Prop :=
  ∀ i : Instr, i.wellFormed = true → decode (encode i) = some i

/-- 30_encoding.md R75 ("every one of the 2^32 words is either exactly one command or illegal"): a word
that decodes is the word of its command, and that command is well-formed. -/
def Obligations.DecodedWordReencodes : Prop :=
  ∀ (w : Word) (i : Instr), decode w = some i → i.wellFormed = true ∧ encode i = w

/-- R75: a word that one row of the opcode map R74 selects is that row's command, no word selects two
rows, and a word that no row selects raises IllegalCommand. -/
def Obligations.DecodeFollowsOpcodeMap : Prop :=
  (∀ w : Word, ∀ r ∈ opcodeMap, r.selects w → decode w = some (r.command w)) ∧
  opcodeMap.Pairwise (fun p q => ∀ w : Word, ¬ (p.selects w ∧ q.selects w)) ∧
  (∀ w : Word, (∀ r ∈ opcodeMap, ¬ r.selects w) →
    decode w = none ∧
    ∀ (s : State) (rest : List HostAction), s.port = .command w :: rest →
      step s = .next (State.afterError { s with port := rest } 1))

/-- R76: every word with `w[31:28]` in 0xD, 0xE, 0xF raises IllegalCommand, whatever its other bits. -/
def Obligations.ReservedOpcodesAreIllegal : Prop :=
  ∀ (w : Word) (s : State) (rest : List HostAction),
    (w.extractLsb' 28 4 = 0xD#4 ∨ w.extractLsb' 28 4 = 0xE#4 ∨ w.extractLsb' 28 4 = 0xF#4) →
    s.port = .command w :: rest →
    step s = .next (State.afterError { s with port := rest } 1)

/-- The bits each format of R72 marks `0`, opcode by opcode 0x0..0xC. -/
def Sys2Proof.Machine.reservedMasks : List Word := [
  0x0FFFFFFF, 0x0F000000, 0x0F000000, 0x0F000000, 0x0F000000, 0x0FFFFF00, 0x00FF0000, 0x00FF0000,
  0x00FFFFFF, 0x00FFFF00, 0x00FFFFFF, 0x00FFFF00, 0x00FFFFFF]

/-- R77: a word of an opcode 0x0..0xC with a 1 in a bit its format marks `0` matches no row and raises
IllegalCommand; the rule's four examples are such words.
R77 is an inference the spec marks as its own (derived from R72 and R75). -/
def Obligations.ReservedFieldBitsAreIllegal : Prop :=
  (∀ (w : Word) (m : Word) (s : State) (rest : List HostAction),
    reservedMasks[(w.extractLsb' 28 4).toNat]? = some m → w &&& m ≠ 0 →
    (∀ r ∈ opcodeMap, ¬ r.selects w) ∧
    (s.port = .command w :: rest → step s = .next (State.afterError { s with port := rest } 1))) ∧
  (∀ w ∈ [0x00000001#32, 0x51000000#32, 0x60010100#32, 0x80000001#32], ∃ m,
    reservedMasks[(w.extractLsb' 28 4).toNat]? = some m ∧ w &&& m ≠ 0)

/-- 95_test_vectors.md section 2.1: the listed words decode as listed. -/
def Obligations.VectorWordsDecode : Prop :=
  decode 0x00000000 = some .nop ∧ decode 0x00000001 = none ∧ decode 0x0F000000 = none ∧
  decode 0x10FFFFFF = some (.setsrc 0xFFFFFF) ∧ decode 0x11000000 = none ∧
  decode 0x20000200 = some (.setdst 0x200) ∧ decode 0x30000006 = some (.setlen 6) ∧
  decode 0x40000000 = some (.setcap 0) ∧ decode 0x500000FF = some (.crcl 0xFF) ∧
  decode 0x50000100 = none ∧ decode 0x51000000 = none ∧
  decode 0x60000001 = some (.dinite 0 1) ∧ decode 0x60000100 = some (.dinite 0 256) ∧
  decode 0x6000FFFF = some (.dinite 0 (-1)) ∧ decode 0x60008000 = some (.dinite 0 (-32768)) ∧
  decode 0x60007FFF = some (.dinite 0 32767) ∧ decode 0x60010100 = none ∧
  decode 0x6F000001 = some (.dinite 15 1) ∧ decode 0x71000100 = some (.dinitd 1 256) ∧
  decode 0x8F000000 = some (.drel 15) ∧ decode 0x80000001 = none ∧
  decode 0x9000000A = some (.dencb 0 10) ∧ decode 0x90000100 = none ∧
  decode 0xA0000000 = some (.denc 0) ∧ decode 0xA0000001 = none ∧
  decode 0xB100000A = some (.ddecb 1 10) ∧ decode 0xC1000000 = some (.ddec 1) ∧
  decode 0xD0000000 = none ∧ decode 0xE1234567 = none ∧ decode 0xFFFFFFFF = none

/-! ## The step and the host -/

/-- R21, R60, R75: when the host's next action is a command word that decodes to `i`, the step is `exec i`
on the state with that action taken off the host's list, and nothing else. -/
def Obligations.StepRunsDecodedCommand : Prop :=
  ∀ (s : State) (w : Word) (rest : List HostAction) (i : Instr),
    s.port = .command w :: rest → decode w = some i → step s = exec i { s with port := rest }

/-- The model's choice (log 5, from "The block is idle between commands, holding all state" in
60_exceptions.md section 4): with nothing left in the host's list the block holds all state. -/
def Obligations.IdleStepHoldsState : Prop :=
  ∀ s : State, s.port = [] → step s = .next s

/-- R59: `ReadMem` gives the byte, or 0 beyond the end, and changes no state; `WriteMem` sets the one byte
it names, or does nothing beyond the end. As steps, both only leave the host's list besides. -/
def Obligations.HostMemoryAccess : Prop :=
  (∀ (s : State) (a : Addr) (rest : List HostAction), s.port = .readMem a :: rest →
    step s = .next { s with port := rest } ∧
    (a.toNat < s.dmem.size → (HostAction.readMem a).reply s = some ((s.dmem.read a.toNat).setWidth 32)) ∧
    (s.dmem.size ≤ a.toNat → (HostAction.readMem a).reply s = some 0)) ∧
  (∀ (s : State) (a : Addr) (b : Byte) (rest : List HostAction), s.port = .writeMem a b :: rest →
    ∃ m : Memory, step s = .next { s with port := rest, dmem := m } ∧ m.size = s.dmem.size ∧
      (∀ x : Nat, x ≠ a.toNat → m.read x = s.dmem.read x) ∧
      (a.toNat < s.dmem.size → m.read a.toNat = b) ∧
      (s.dmem.size ≤ a.toNat → m = s.dmem))

/-- R34, R35, R36 and the layout in R24: what each register number reads, bit field by bit field as
numbers, for the legal parameters of R10; a register read changes no state; and the host changes a
register only by a command or by reset. -/
def Obligations.HostRegisterReads : Prop :=
  ∀ s : State, 1 ≤ s.nch → s.nch ≤ 16 → 1 ≤ s.dmem.size → s.dmem.size ≤ 2 ^ 24 →
    (s.readReg 0x00).toNat = s.status.last.toNat + 256 * s.status.sticky.toNat ∧
    s.readReg 0x01 = s.res ∧
    (s.readReg 0x02).toNat = s.src.toNat ∧ (s.readReg 0x03).toNat = s.dst.toNat ∧
    (s.readReg 0x04).toNat = s.len.toNat ∧ (s.readReg 0x05).toNat = s.cap.toNat ∧
    (s.readReg 0x06).toNat = s.nch + 256 * (s.dmem.size - 1) ∧
    (∀ (n : BitVec 8) (c : Nat) (h : Channel), s.channels[c]? = some h → n.toNat = 0x10 + c →
      (s.readReg n).toNat =
        h.dist.toNat + 512 * (if h.dir = .decoder then 1 else 0) + 1024 * h.valid.toNat) ∧
    (∀ n : BitVec 8, 0x07 ≤ n.toNat → (n.toNat < 0x10 ∨ 0x10 + s.nch ≤ n.toNat) → s.readReg n = 0) ∧
    (∀ (n : BitVec 8) (rest : List HostAction), s.port = .readReg n :: rest →
      (HostAction.readReg n).reply s = some (s.readReg n) ∧ step s = .next { s with port := rest }) ∧
    (∀ (a : HostAction) (rest : List HostAction) (t : State), s.port = a :: rest →
      (∀ w, a ≠ .command w) → a ≠ .reset → step s = .next t → t = { s with port := rest, dmem := t.dmem })

/-- R230: every state element is at its value of R39 after power-up, whatever NCH and MEM_BYTES are, and
after the host asserts reset; a host reset does not change DMEM. -/
def Obligations.ResetSetsEveryElement : Prop :=
  (∀ (s : State) (rest : List HostAction), s.port = .reset :: rest →
    ∃ t, step s = .next t ∧
      t.channels = List.replicate s.nch ⟨false, .encoder, 0, 0, Vector.replicate 256 0⟩ ∧
      t.src = 0 ∧ t.dst = 0 ∧ t.len = 0 ∧ t.cap = 0 ∧ t.res = 0 ∧ t.status = ⟨0, false⟩ ∧
      t.cmdidx = 0 ∧ t.dmem = s.dmem) ∧
  (∀ nch memBytes : Nat, ∃ t, State.powerUp nch memBytes = t ∧
      t.channels = List.replicate nch ⟨false, .encoder, 0, 0, Vector.replicate 256 0⟩ ∧
      t.src = 0 ∧ t.dst = 0 ∧ t.len = 0 ∧ t.cap = 0 ∧ t.res = 0 ∧ t.status = ⟨0, false⟩ ∧
      t.cmdidx = 0 ∧ t.dmem.size = memBytes)

/-- The model's choices about reset: a DMEM byte at power-up is the free value, of which nothing is known
(log 3); a host reset keeps what the host has yet to do (log 7); `State.reset` is a power-up with legal
parameters (logs 1 and 2) and nothing yet from the host (log 4). -/
def Obligations.ResetModelChoices : Prop :=
  (∀ nch memBytes a : Nat, (State.powerUp nch memBytes).dmem.read a = Config.powerUpByte a) ∧
  (∀ (s : State) (rest : List HostAction), s.port = .reset :: rest →
    ∃ t, step s = .next t ∧ t.port = rest) ∧
  (∃ nch memBytes : Nat, 1 ≤ nch ∧ nch ≤ 16 ∧ 1 ≤ memBytes ∧ memBytes ≤ 2 ^ 24 ∧
    State.reset = State.powerUp nch memBytes ∧ State.reset.port = [])

/-! ## Control and operand setup -/

/-- R100: NOP is the word 0 alone below 0x10000000, sets LAST to 0, keeps STICKY and everything else;
after a failing command STATUS 0x103 becomes 0x100. -/
def Obligations.NopReportsSuccess : Prop :=
  decode 0x00000000 = some .nop ∧ (∀ w : Word, w ≠ 0 → w.toNat ≤ 0x0FFFFFFF → decode w = none) ∧
  (∀ s : State, exec .nop s =
    .next { s with status := ⟨0, s.status.sticky⟩, cmdidx := s.cmdidx + 1 }) ∧
  (∀ s t : State, s.status.word = 0x00000103 → exec .nop s = .next t → t.status.word = 0x00000100)

/-- R101: SETSRC loads SRC with its imm24, unchecked, and changes nothing else but LAST and cmdidx. -/
def Obligations.SetsrcLoadsSrc : Prop :=
  (∀ v : Nat, v ≤ 16777215 → decode (BitVec.ofNat 32 (0x10000000 + v)) = some (.setsrc v)) ∧
  (∀ w : Word, w &&& 0xF0000000 = 0x10000000 → w &&& 0x0F000000 ≠ 0 → decode w = none) ∧
  ∀ (v : Nat) (s : State), v ≤ 16777215 → ∃ t, exec (.setsrc v) s = .next t ∧ t.src.toNat = v ∧
    t = { s with src := t.src, status := ⟨0, s.status.sticky⟩, cmdidx := s.cmdidx + 1 }

/-- R102: SETDST loads DST with its imm24, unchecked, and changes nothing else but LAST and cmdidx. DDEC
does the same whatever DST holds. -/
def Obligations.SetdstLoadsDst : Prop :=
  (∀ v : Nat, v ≤ 16777215 → decode (BitVec.ofNat 32 (0x20000000 + v)) = some (.setdst v)) ∧
  (∀ w : Word, w &&& 0xF0000000 = 0x20000000 → w &&& 0x0F000000 ≠ 0 → decode w = none) ∧
  (∀ (v : Nat) (s : State), v ≤ 16777215 → ∃ t, exec (.setdst v) s = .next t ∧ t.dst.toNat = v ∧
    t = { s with dst := t.dst, status := ⟨0, s.status.sticky⟩, cmdidx := s.cmdidx + 1 }) ∧
  ∀ (ch : Nat) (d : Addr) (s t : State), exec (.ddec ch) s = .next t →
    exec (.ddec ch) { s with dst := d } = .next { t with dst := d }

/-- R103: SETLEN loads LEN with its imm24, unchecked, and changes nothing else but LAST and cmdidx. With
LEN = 0, DENC and DDEC transform nothing and succeed when their channel checks pass. -/
def Obligations.SetlenLoadsLen : Prop :=
  (∀ v : Nat, v ≤ 16777215 → decode (BitVec.ofNat 32 (0x30000000 + v)) = some (.setlen v)) ∧
  (∀ w : Word, w &&& 0xF0000000 = 0x30000000 → w &&& 0x0F000000 ≠ 0 → decode w = none) ∧
  (∀ (v : Nat) (s : State), v ≤ 16777215 → ∃ t, exec (.setlen v) s = .next t ∧ t.len.toNat = v ∧
    t = { s with len := t.len, status := ⟨0, s.status.sticky⟩, cmdidx := s.cmdidx + 1 }) ∧
  ∀ (ch : Nat) (c : Channel) (s : State), s.len = 0 → s.channels[ch]? = some c → c.valid = true →
    (c.dir = .encoder →
      exec (.denc ch) s = .next { s with status := ⟨0, s.status.sticky⟩, cmdidx := s.cmdidx + 1 }) ∧
    (c.dir = .decoder →
      exec (.ddec ch) s = .next { s with status := ⟨0, s.status.sticky⟩, cmdidx := s.cmdidx + 1 })

/-- R104: SETCAP loads CAP with its imm24, unchecked, and changes nothing else but LAST and cmdidx. DENC
with CAP < LEN raises BufferCapacity, DENC writes no byte beyond LEN whatever CAP holds, and DDEC does the
same whatever CAP holds. -/
def Obligations.SetcapLoadsCap : Prop :=
  (∀ v : Nat, v ≤ 16777215 → decode (BitVec.ofNat 32 (0x40000000 + v)) = some (.setcap v)) ∧
  (∀ w : Word, w &&& 0xF0000000 = 0x40000000 → w &&& 0x0F000000 ≠ 0 → decode w = none) ∧
  (∀ (v : Nat) (s : State), v ≤ 16777215 → ∃ t, exec (.setcap v) s = .next t ∧ t.cap.toNat = v ∧
    t = { s with cap := t.cap, status := ⟨0, s.status.sticky⟩, cmdidx := s.cmdidx + 1 }) ∧
  (∀ (ch : Nat) (c : Channel) (s : State), s.channels[ch]? = some c → c.valid = true →
    c.dir = .encoder → s.cap.toNat < s.len.toNat → exec (.denc ch) s = .next (s.afterError 6)) ∧
  (∀ (ch : Nat) (s t : State), exec (.denc ch) s = .next t →
    ∀ a : Nat, (a < s.dst.toNat ∨ s.dst.toNat + s.len.toNat ≤ a) → t.dmem.read a = s.dmem.read a) ∧
  ∀ (ch : Nat) (v : Addr) (s t : State), exec (.ddec ch) s = .next t →
    exec (.ddec ch) { s with cap := v } = .next { t with cap := v }

/-- R81: running the expansion of ENCODE or ENCODEC is DENC with the four operand registers set, running
that of DECODE is DDEC with SRC and LEN set, and DINIT is the construction of its direction; the operand
registers keep the values set. Each 24-bit operand takes every value its SET command has a word for, which
is every value the assembler accepts (R73, R80). -/
def Obligations.PseudoInstructionsExpand : Prop :=
  (∀ (ch src dst len cap : Nat) (s : State), imm24Ok src = true → imm24Ok dst = true →
    imm24Ok len = true → imm24Ok cap = true →
    execAll (Pseudo.encodec ch src dst len cap).expand s =
      exec (.denc ch) { s with
        src := BitVec.ofNat 24 src, dst := BitVec.ofNat 24 dst, len := BitVec.ofNat 24 len
        cap := BitVec.ofNat 24 cap, status := ⟨0, s.status.sticky⟩, cmdidx := s.cmdidx + 4 } ∧
    ∀ t : State, execAll (Pseudo.encodec ch src dst len cap).expand s = .next t →
      t.src.toNat = src ∧ t.dst.toNat = dst ∧ t.len.toNat = len ∧ t.cap.toNat = cap) ∧
  (∀ (ch src dst len : Nat) (s : State), imm24Ok src = true → imm24Ok dst = true →
    imm24Ok len = true →
    execAll (Pseudo.encode ch src dst len).expand s =
      exec (.denc ch) { s with
        src := BitVec.ofNat 24 src, dst := BitVec.ofNat 24 dst, len := BitVec.ofNat 24 len
        cap := BitVec.ofNat 24 len, status := ⟨0, s.status.sticky⟩, cmdidx := s.cmdidx + 4 } ∧
    ∀ t : State, execAll (Pseudo.encode ch src dst len).expand s = .next t →
      t.src.toNat = src ∧ t.dst.toNat = dst ∧ t.len.toNat = len ∧ t.cap.toNat = len) ∧
  (∀ (ch addr len : Nat) (s : State), imm24Ok addr = true → imm24Ok len = true →
    execAll (Pseudo.decode ch addr len).expand s =
      exec (.ddec ch) { s with
        src := BitVec.ofNat 24 addr, len := BitVec.ofNat 24 len
        status := ⟨0, s.status.sticky⟩, cmdidx := s.cmdidx + 2 } ∧
    ∀ t : State, execAll (Pseudo.decode ch addr len).expand s = .next t →
      t.src.toNat = addr ∧ t.len.toNat = len) ∧
  (∀ (ch : Nat) (d : Int) (s : State),
    execAll (Pseudo.dinit ch .e d).expand s = exec (.dinite ch d) s ∧
    execAll (Pseudo.dinit ch .d d).expand s = exec (.dinitd ch d) s)

/-! ## CRC table -/

/-- R120: every entry of the table is what the generation algorithm gives for its index: eight rounds,
each a right shift by one, and an exclusive-or with 0xEDB88320 where bit 0 was 1. -/
def Obligations.CrcTableFollowsAlgorithm : Prop :=
  crcTable.length = 256 ∧
  ∀ i : Byte, ∃ r : Nat → Word, r 0 = i.setWidth 32 ∧
    (∀ j : Nat, j < 8 →
      r (j + 1) = if r j % 2 = 1 then (r j >>> 1) ^^^ 0xEDB88320 else r j >>> 1) ∧
    crcLookup i = r 8

/-- R122: the table's stated values, the eight rounds of index 1, linearity over exclusive-or, the eight
entries the table follows from, and that no two indices share a word.
R122 is an inference the spec marks as its own (derived from R120). -/
def Obligations.CrcTableProperties : Prop :=
  crcLookup 0x00 = 0x00000000 ∧ crcLookup 0x80 = 0xEDB88320 ∧ crcLookup 0x01 = 0x77073096 ∧
  crcLookup 0xFF = 0x2D02EF8D ∧
  (List.range 8).map (fun n => crcRounds (n + 1) 1) =
    [0xEDB88320, 0x76DC4190, 0x3B6E20C8, 0x1DB71064, 0x0EDB8832, 0x076DC419, 0xEE0E612C, 0x77073096] ∧
  (∀ a b : Byte, crcLookup (a ^^^ b) = crcLookup a ^^^ crcLookup b) ∧
  [0x01, 0x02, 0x04, 0x08, 0x10, 0x20, 0x40, 0x80].map crcLookup =
    [0x77073096, 0xEE0E612C, 0x076DC419, 0x0EDB8832, 0x1DB71064, 0x3B6E20C8, 0x76DC4190, 0xEDB88320] ∧
  (∀ a b : Byte, crcLookup a = crcLookup b → a = b)

/-- R124: CRCL writes the table's entry to RES and changes nothing else but LAST and cmdidx. -/
def Obligations.CrclReadsTable : Prop :=
  (∀ v : Nat, v ≤ 255 → decode (BitVec.ofNat 32 (0x50000000 + v)) = some (.crcl v)) ∧
  (∀ w : Word, w &&& 0xF0000000 = 0x50000000 → w &&& 0x0FFFFF00 ≠ 0 → decode w = none) ∧
  (∀ (i : Byte) (s : State), exec (.crcl i.toNat) s =
    .next { s with res := crcLookup i, status := ⟨0, s.status.sticky⟩, cmdidx := s.cmdidx + 1 }) ∧
  (∀ s t : State, exec (.crcl 0x01) s = .next t → t.res = 0x77073096)

/-! ## Construction and release -/

/-- R140, R141: DINITE builds a fresh encoder instance, replacing whatever the channel held, when the
channel exists and the distance is 1..256; otherwise it raises InvalidChannel, or InvalidDistance, in
that order. -/
def Obligations.DiniteBuildsEncoder : Prop :=
  (∀ (ch : Nat) (d : Int), ch ≤ 15 → -32768 ≤ d → d ≤ 32767 →
    decode (BitVec.ofNat 32 (0x60000000 + ch * 2 ^ 24 + (d % 65536).toNat)) = some (.dinite ch d)) ∧
  (∀ w : Word, w &&& 0xF0000000 = 0x60000000 → w &&& 0x00FF0000 ≠ 0 → decode w = none) ∧
  (∀ (s : State) (ch : Nat) (d : Int), s.nch ≤ ch → exec (.dinite ch d) s = .next (s.afterError 2)) ∧
  (∀ (s : State) (ch : Nat) (d : Int), ch < s.nch → (d ≤ 0 ∨ d > 256) →
    exec (.dinite ch d) s = .next (s.afterError 3)) ∧
  (∀ (s : State) (ch d : Nat), ch < s.nch → 1 ≤ d → d ≤ 256 →
    exec (.dinite ch d) s = .next { s with
      channels := s.channels.set ch ⟨true, .encoder, BitVec.ofNat 9 d, 0, Vector.replicate 256 0⟩
      status := ⟨0, s.status.sticky⟩, cmdidx := s.cmdidx + 1 })

/-- R140, R142: DINITD builds a fresh decoder instance, with the checks of DINITE. -/
def Obligations.DinitdBuildsDecoder : Prop :=
  (∀ (ch : Nat) (d : Int), ch ≤ 15 → -32768 ≤ d → d ≤ 32767 →
    decode (BitVec.ofNat 32 (0x70000000 + ch * 2 ^ 24 + (d % 65536).toNat)) = some (.dinitd ch d)) ∧
  (∀ w : Word, w &&& 0xF0000000 = 0x70000000 → w &&& 0x00FF0000 ≠ 0 → decode w = none) ∧
  (∀ (s : State) (ch : Nat) (d : Int), s.nch ≤ ch → exec (.dinitd ch d) s = .next (s.afterError 2)) ∧
  (∀ (s : State) (ch : Nat) (d : Int), ch < s.nch → (d ≤ 0 ∨ d > 256) →
    exec (.dinitd ch d) s = .next (s.afterError 3)) ∧
  (∀ (s : State) (ch d : Nat), ch < s.nch → 1 ≤ d → d ≤ 256 →
    exec (.dinitd ch d) s = .next { s with
      channels := s.channels.set ch ⟨true, .decoder, BitVec.ofNat 9 d, 0, Vector.replicate 256 0⟩
      status := ⟨0, s.status.sticky⟩, cmdidx := s.cmdidx + 1 })

/-- R143: a construction that succeeds discards the old instance whatever it was; one that raises any
error leaves every channel as it was. -/
def Obligations.ConstructionReplacesOrKeeps : Prop :=
  ∀ (s t : State) (ch : Nat) (d : Int) (dir : Dir) (i : Instr),
    i = (match dir with | .encoder => .dinite ch d | .decoder => .dinitd ch d) → exec i s = .next t →
    (t.status.last = 0 →
      t.channels[ch]? = some ⟨true, dir, BitVec.ofInt 9 d, 0, Vector.replicate 256 0⟩) ∧
    (t.status.last ≠ 0 → t.channels = s.channels)

/-- R144: DREL sets every field of the channel to 0, whether or not it held an instance; a channel number
beyond NCH raises InvalidChannel; after DREL every data command on the channel raises Unconfigured. -/
def Obligations.DrelClearsChannel : Prop :=
  (∀ ch : Nat, ch ≤ 15 → decode (BitVec.ofNat 32 (0x80000000 + ch * 2 ^ 24)) = some (.drel ch)) ∧
  (∀ w : Word, w &&& 0xF0000000 = 0x80000000 → w &&& 0x00FFFFFF ≠ 0 → decode w = none) ∧
  (∀ (s : State) (ch : Nat), s.nch ≤ ch → exec (.drel ch) s = .next (s.afterError 2)) ∧
  (∀ (s : State) (ch : Nat), ch < s.nch →
    ∃ t, exec (.drel ch) s = .next t ∧
      t = { s with
        channels := s.channels.set ch ⟨false, .encoder, 0, 0, Vector.replicate 256 0⟩
        status := ⟨0, s.status.sticky⟩, cmdidx := s.cmdidx + 1 } ∧
      ∀ u i dir, dataDir i = some (ch, dir) → u.channels[ch]? = t.channels[ch]? →
        exec i u = .next (u.afterError 4))

/-- R25, R146: a command leaves every channel it does not name as it was, and does the same whatever
such a channel holds.
R146 is an inference the spec marks as its own (derived from R141, R142 and R160). -/
def Obligations.ChannelsAreIndependent : Prop :=
  ∀ (i : Instr) (s t : State) (c : Nat), namedChannel i ≠ some c → exec i s = .next t →
    t.channels[c]? = s.channels[c]? ∧
    ∀ h : Channel, exec i { s with channels := s.channels.set c h } =
      .next { t with channels := t.channels.set c h }

/-! ## Encoder -/

/-- R160, R16, R235: the encoder byte step reads slot `(DIST + POS) mod 256`, then stores the original
byte in slot POS, moves POS down by one modulo 256, and gives `(x - t) mod 256`; with DIST = 256 the
slot read is the slot about to be written, and gives what it held before. -/
def Obligations.EncoderByteStep : Prop :=
  ∀ (c : Channel) (x : Byte), ∃ (t : Byte) (slot : Fin 256),
    slot.val = (c.dist.toNat + c.pos.toNat) % 256 ∧ t = c.hist[slot] ∧
    (c.dist.toNat = 256 → slot.val = c.pos.toNat) ∧
    (encStep c x).2.toNat = (x.toNat + 256 - t.toNat) % 256 ∧
    (encStep c x).1 = { c with
      hist := c.hist.set c.pos.toNat x c.pos.isLt
      pos := BitVec.ofNat 8 ((c.pos.toNat + 255) % 256) }

/-- R163: DENCB checks the channel, VALID and DIR in that order; then it runs one encoder byte step on
the channel and puts the encoded byte, zero-extended, in RES. -/
def Obligations.DencbEncodesByte : Prop :=
  (∀ ch x : Nat, ch ≤ 15 → x ≤ 255 →
    decode (BitVec.ofNat 32 (0x90000000 + ch * 2 ^ 24 + x)) = some (.dencb ch x)) ∧
  (∀ w : Word, w &&& 0xF0000000 = 0x90000000 → w &&& 0x00FFFF00 ≠ 0 → decode w = none) ∧
  (∀ (s : State) (ch x : Nat), s.nch ≤ ch → exec (.dencb ch x) s = .next (s.afterError 2)) ∧
  (∀ (s : State) (ch x : Nat) (c : Channel), s.channels[ch]? = some c → c.valid = false →
    exec (.dencb ch x) s = .next (s.afterError 4)) ∧
  (∀ (s : State) (ch x : Nat) (c : Channel), s.channels[ch]? = some c → c.valid = true →
    c.dir ≠ .encoder → exec (.dencb ch x) s = .next (s.afterError 5)) ∧
  (∀ (s : State) (ch : Nat) (x : Byte) (c : Channel), s.channels[ch]? = some c → c.valid = true →
    c.dir = .encoder →
    exec (.dencb ch x.toNat) s = .next { s with
      channels := s.channels.set ch (encStep c x).1
      res := BitVec.ofNat 32 (encStep c x).2.toNat
      status := ⟨0, s.status.sticky⟩, cmdidx := s.cmdidx + 1 }) ∧
  (∀ s : State, s.fresh 0 .encoder 1 → ∃ t h, exec (.dencb 0 10) s = .next t ∧
    t.res = 0x0000000A ∧ t.channels[0]? = some h ∧ h.pos = 0xFF ∧ h.slot 0 = 10) ∧
  (∀ (c : Channel) (x : Byte),
    (encStep c x).2.toNat = (x.toNat + 256 - c.lookback.toNat) % 256 ∧
    (c.dist.toNat = 256 → c.lookback = c.slot c.pos))

/-- R164: the six checks of DENC, in their order, each raising its error with nothing else written. -/
def Obligations.DencChecksInOrder : Prop :=
  ∀ (s : State) (ch : Nat),
    (s.nch ≤ ch → exec (.denc ch) s = .next (s.afterError 2)) ∧
    ∀ c : Channel, s.channels[ch]? = some c →
      (c.valid = false → exec (.denc ch) s = .next (s.afterError 4)) ∧
      (c.valid = true → c.dir ≠ .encoder → exec (.denc ch) s = .next (s.afterError 5)) ∧
      (c.valid = true → c.dir = .encoder →
        (s.cap.toNat < s.len.toNat → exec (.denc ch) s = .next (s.afterError 6)) ∧
        (s.len.toNat ≤ s.cap.toNat → 0 < s.len.toNat → s.dmem.size < s.src.toNat + s.len.toNat →
          exec (.denc ch) s = .next (s.afterError 7)) ∧
        (s.len.toNat ≤ s.cap.toNat → 0 < s.len.toNat → s.src.toNat + s.len.toNat ≤ s.dmem.size →
          s.dmem.size < s.dst.toNat + s.len.toNat → exec (.denc ch) s = .next (s.afterError 7)))

/-- The conditions under which a DENC on channel `ch`, holding `c`, passes its checks (R164). -/
def Sys2Proof.Machine.dencReady (s : State) (ch : Nat) (c : Channel) : Prop :=
  s.channels[ch]? = some c ∧ c.valid = true ∧ c.dir = .encoder ∧ s.len.toNat ≤ s.cap.toNat ∧
    (s.len.toNat = 0 ∨ (s.src.toNat + s.len.toNat ≤ s.dmem.size ∧ s.dst.toNat + s.len.toNat ≤ s.dmem.size))

/-- R166, R61: once its checks pass, DENC runs LEN byte steps in order, each reading the byte at SRC + i,
stepping the channel, and writing the byte at DST + i; `f i` is the channel and DMEM after `i` of them.
It leaves SRC, DST, LEN, CAP, RES and STICKY alone; with LEN = 0 it changes only LAST and cmdidx. When a
check fails it raises the code of the first that does. -/
def Obligations.DencRunsChunk : Prop :=
  (∀ ch : Nat, ch ≤ 15 → decode (BitVec.ofNat 32 (0xA0000000 + ch * 2 ^ 24)) = some (.denc ch)) ∧
  (∀ w : Word, w &&& 0xF0000000 = 0xA0000000 → w &&& 0x00FFFFFF ≠ 0 → decode w = none) ∧
  (∀ (s : State) (ch : Nat), (∀ c, ¬ dencReady s ch c) → ∃ code : BitVec 4, code ≠ 0 ∧
    firstCode (failedChecks (.denc ch) s) code ∧ exec (.denc ch) s = .next (s.afterError code)) ∧
  (∀ (s : State) (ch : Nat) (c : Channel), dencReady s ch c →
    ∃ f : Nat → Channel × Memory, f 0 = (c, s.dmem) ∧
      (∀ i : Nat, i < s.len.toNat →
        f (i + 1) = ((encStep (f i).1 ((f i).2.read (s.src.toNat + i))).1,
          (f i).2.write (s.dst.toNat + i) (encStep (f i).1 ((f i).2.read (s.src.toNat + i))).2)) ∧
      exec (.denc ch) s = .next { s with
        channels := s.channels.set ch (f s.len.toNat).1
        dmem := (f s.len.toNat).2
        status := ⟨0, s.status.sticky⟩, cmdidx := s.cmdidx + 1 }) ∧
  (∀ (s : State) (ch : Nat) (c : Channel), dencReady s ch c → s.len = 0 →
    exec (.denc ch) s = .next { s with status := ⟨0, s.status.sticky⟩, cmdidx := s.cmdidx + 1 })

/-- R165: the bytes a DENC encodes. Where the chunks do not overlap, or `DST ≤ SRC`, byte `i` is the byte
DMEM held at the start; where `SRC < DST < SRC + LEN`, byte `i ≥ DST - SRC` is the encoded byte of step
`i - (DST - SRC)`. DMEM from DST up then holds the encoded bytes. `xs` and `ys` are the bytes in and out
of the LEN encoder byte steps and `f i` the channel after `i` of them.
R165's two cases are an inference the spec marks as its own (derived from R166 and R61). -/
def Obligations.DencOverlapIsSequential : Prop :=
  ∀ (s t : State) (ch : Nat) (c : Channel), dencReady s ch c → exec (.denc ch) s = .next t →
    ∃ (f : Nat → Channel) (xs ys : Nat → Byte), f 0 = c ∧
      (∀ i : Nat, i < s.len.toNat → encStep (f i) (xs i) = (f (i + 1), ys i)) ∧
      t.channels[ch]? = some (f s.len.toNat) ∧
      (∀ i : Nat, i < s.len.toNat → t.dmem.read (s.dst.toNat + i) = ys i) ∧
      (s.dst.toNat ≤ s.src.toNat ∨ s.src.toNat + s.len.toNat ≤ s.dst.toNat →
        ∀ i : Nat, i < s.len.toNat → xs i = s.dmem.read (s.src.toNat + i)) ∧
      (s.src.toNat < s.dst.toNat → s.dst.toNat < s.src.toNat + s.len.toNat →
        ∀ i : Nat, i < s.len.toNat →
          (i < s.dst.toNat - s.src.toNat → xs i = s.dmem.read (s.src.toNat + i)) ∧
          (s.dst.toNat - s.src.toNat ≤ i → xs i = ys (i - (s.dst.toNat - s.src.toNat))))

/-- R167: a successful DENC writes no DMEM byte outside the LEN bytes from DST up; a successful DENCB
gives one byte in RES and writes no DMEM byte.
R167 is an inference the spec marks as its own (derived from R163 and R166). -/
def Obligations.EncoderWriteSet : Prop :=
  (∀ (s t : State) (ch : Nat), exec (.denc ch) s = .next t → t.status.last = 0 →
    ∀ a : Nat, (a < s.dst.toNat ∨ s.dst.toNat + s.len.toNat ≤ a) → t.dmem.read a = s.dmem.read a) ∧
  (∀ (s t : State) (ch x : Nat), exec (.dencb ch x) s = .next t → t.status.last = 0 →
    t.res.toNat < 256 ∧ t.dmem = s.dmem)

/-- R161: from a fresh encoder with distance d, in any run of DENCB and DENC commands, step k gives
`(x_k - x_{k-d}) mod 256` with 0 before the stream's start, so the first d outputs equal the inputs.
R161 is an inference the spec marks as its own (derived from R160 and R31). -/
def Obligations.EncoderClosedForm : Prop :=
  ∀ (c d : Nat) (s u : State) (xs ys : List Byte), s.fresh c .encoder d → EncRun c s xs ys u →
    ys.length = xs.length ∧
    (∀ k : Nat, k < xs.length → ys.getD k 0 = xs.getD k 0 - lagged xs d k) ∧
    (∀ k : Nat, k < xs.length → k < d → ys.getD k 0 = xs.getD k 0)

/-- R162, R146: two fresh encoders with the same distance, fed the same bytes however they are split into
commands and whatever happens between, give the same bytes and end with the same HIST and POS.
R162 is an inference the spec marks as its own (derived from R160 and R161). -/
def Obligations.EncoderSplitInvariance : Prop :=
  ∀ (c₁ c₂ d : Nat) (s₁ s₂ u₁ u₂ : State) (xs ys₁ ys₂ : List Byte),
    s₁.fresh c₁ .encoder d → s₂.fresh c₂ .encoder d → EncRun c₁ s₁ xs ys₁ u₁ → EncRun c₂ s₂ xs ys₂ u₂ →
    ys₁ = ys₂ ∧ ∃ h₁ h₂ : Channel, u₁.channels[c₁]? = some h₁ ∧ u₂.channels[c₂]? = some h₂ ∧
      h₁.hist = h₂.hist ∧ h₁.pos = h₂.pos

/-! ## Decoder -/

/-- R180: the decoder byte step reads slot `(DIST + POS) mod 256`, adds modulo 256, stores the
reconstructed byte in slot POS, moves POS down by one modulo 256, and gives the reconstructed byte. -/
def Obligations.DecoderByteStep : Prop :=
  ∀ (c : Channel) (y : Byte), ∃ (t x : Byte) (slot : Fin 256),
    slot.val = (c.dist.toNat + c.pos.toNat) % 256 ∧ t = c.hist[slot] ∧
    x.toNat = (y.toNat + t.toNat) % 256 ∧ (decStep c y).2 = x ∧
    (decStep c y).1 = { c with
      hist := c.hist.set c.pos.toNat x c.pos.isLt
      pos := BitVec.ofNat 8 ((c.pos.toNat + 255) % 256) }

/-- R183: DDECB checks the channel, VALID and DIR in that order; then it runs one decoder byte step on
the channel and puts the decoded byte, zero-extended, in RES. -/
def Obligations.DdecbDecodesByte : Prop :=
  (∀ ch y : Nat, ch ≤ 15 → y ≤ 255 →
    decode (BitVec.ofNat 32 (0xB0000000 + ch * 2 ^ 24 + y)) = some (.ddecb ch y)) ∧
  (∀ w : Word, w &&& 0xF0000000 = 0xB0000000 → w &&& 0x00FFFF00 ≠ 0 → decode w = none) ∧
  (∀ (s : State) (ch y : Nat), s.nch ≤ ch → exec (.ddecb ch y) s = .next (s.afterError 2)) ∧
  (∀ (s : State) (ch y : Nat) (c : Channel), s.channels[ch]? = some c → c.valid = false →
    exec (.ddecb ch y) s = .next (s.afterError 4)) ∧
  (∀ (s : State) (ch y : Nat) (c : Channel), s.channels[ch]? = some c → c.valid = true →
    c.dir ≠ .decoder → exec (.ddecb ch y) s = .next (s.afterError 5)) ∧
  (∀ (s : State) (ch : Nat) (y : Byte) (c : Channel), s.channels[ch]? = some c → c.valid = true →
    c.dir = .decoder →
    exec (.ddecb ch y.toNat) s = .next { s with
      channels := s.channels.set ch (decStep c y).1
      res := BitVec.ofNat 32 (decStep c y).2.toNat
      status := ⟨0, s.status.sticky⟩, cmdidx := s.cmdidx + 1 }) ∧
  (∀ s : State, s.fresh 1 .decoder 1 → ∃ t h, exec (.ddecb 1 10) s = .next t ∧
    t.res = 0x0000000A ∧ t.channels[1]? = some h ∧ h.pos = 0xFF ∧ h.slot 0 = 10) ∧
  (∀ (c : Channel) (y : Byte), (decStep c y).2.toNat = (y.toNat + c.lookback.toNat) % 256)

/-- The conditions under which a DDEC on channel `ch`, holding `c`, passes its checks (R184). -/
def Sys2Proof.Machine.ddecReady (s : State) (ch : Nat) (c : Channel) : Prop :=
  s.channels[ch]? = some c ∧ c.valid = true ∧ c.dir = .decoder ∧
    (s.len.toNat = 0 ∨ s.src.toNat + s.len.toNat ≤ s.dmem.size)

/-- R184: the four checks of DDEC, in their order, each raising its error with nothing else written. There
is no capacity check: where the four pass, DDEC succeeds whatever CAP holds. -/
def Obligations.DdecChecksInOrder : Prop :=
  ∀ (s : State) (ch : Nat),
    (s.nch ≤ ch → exec (.ddec ch) s = .next (s.afterError 2)) ∧
    ∀ c : Channel, s.channels[ch]? = some c →
      (c.valid = false → exec (.ddec ch) s = .next (s.afterError 4)) ∧
      (c.valid = true → c.dir ≠ .decoder → exec (.ddec ch) s = .next (s.afterError 5)) ∧
      (c.valid = true → c.dir = .decoder → 0 < s.len.toNat → s.dmem.size < s.src.toNat + s.len.toNat →
        exec (.ddec ch) s = .next (s.afterError 7)) ∧
      (ddecReady s ch c → ∀ v : Addr, ∃ t,
        exec (.ddec ch) { s with cap := v } = .next t ∧ t.status.last = 0)

/-- R186: once its checks pass, DDEC decodes the LEN bytes from SRC up in place and in order:
byte `i` in is the byte DMEM held at SRC + i at the start, byte `i` out is what it holds at the end;
`f i` is the channel after `i` byte steps. CAP and DST play no part, and SRC, DST, LEN, CAP, RES and
STICKY stay. When a check fails it raises the code of the first that does. -/
def Obligations.DdecDecodesInPlace : Prop :=
  (∀ ch : Nat, ch ≤ 15 → decode (BitVec.ofNat 32 (0xC0000000 + ch * 2 ^ 24)) = some (.ddec ch)) ∧
  (∀ w : Word, w &&& 0xF0000000 = 0xC0000000 → w &&& 0x00FFFFFF ≠ 0 → decode w = none) ∧
  (∀ (s : State) (ch : Nat), (∀ c, ¬ ddecReady s ch c) → ∃ code : BitVec 4, code ≠ 0 ∧
    firstCode (failedChecks (.ddec ch) s) code ∧ exec (.ddec ch) s = .next (s.afterError code)) ∧
  (∀ (s : State) (ch : Nat) (c : Channel), ddecReady s ch c →
    ∃ (t : State) (f : Nat → Channel), exec (.ddec ch) s = .next t ∧ f 0 = c ∧
      (∀ i : Nat, i < s.len.toNat →
        decStep (f i) (s.dmem.read (s.src.toNat + i)) = (f (i + 1), t.dmem.read (s.src.toNat + i))) ∧
      (∀ a : Nat, (a < s.src.toNat ∨ s.src.toNat + s.len.toNat ≤ a) → t.dmem.read a = s.dmem.read a) ∧
      t = { s with
        channels := s.channels.set ch (f s.len.toNat)
        dmem := t.dmem
        status := ⟨0, s.status.sticky⟩, cmdidx := s.cmdidx + 1 })

/-- R187: a successful DDEC writes no DMEM byte outside the LEN bytes from SRC up; a successful DDECB
gives one byte in RES and writes no DMEM byte.
R187 is an inference the spec marks as its own (derived from R183 and R186). -/
def Obligations.DecoderWriteSet : Prop :=
  (∀ (s t : State) (ch : Nat), exec (.ddec ch) s = .next t → t.status.last = 0 →
    ∀ a : Nat, (a < s.src.toNat ∨ s.src.toNat + s.len.toNat ≤ a) → t.dmem.read a = s.dmem.read a) ∧
  (∀ (s t : State) (ch y : Nat), exec (.ddecb ch y) s = .next t → t.status.last = 0 →
    t.res.toNat < 256 ∧ t.dmem = s.dmem)

/-- R181: from a fresh decoder with distance d, in any run of DDECB and DDEC commands, step k gives
`x_k = (y_k + x_{k-d}) mod 256` with 0 before the stream's start, and HIST holds the channel's outputs.
R181 is an inference the spec marks as its own (derived from R180 and R31). -/
def Obligations.DecoderClosedForm : Prop :=
  ∀ (c d : Nat) (s u : State) (ys xs : List Byte), s.fresh c .decoder d → DecRun c s ys xs u →
    xs.length = ys.length ∧
    (∀ k : Nat, k < ys.length → xs.getD k 0 = ys.getD k 0 + lagged xs d k) ∧
    ∃ h : Channel, u.channels[c]? = some h ∧ h.historyIs xs

/-- R182: an encoder and a decoder built with the same distance, the decoder fed what the encoder gave,
each in any split: the decoder gives the encoder's bytes, and they end with the same HIST and POS.
R182 is an inference the spec marks as its own (derived from R181, R161 and R15). -/
def Obligations.DecoderInvertsEncoder : Prop :=
  ∀ (e c d : Nat) (s₁ s₂ u₁ u₂ : State) (xs ys zs : List Byte),
    s₁.fresh e .encoder d → s₂.fresh c .decoder d → EncRun e s₁ xs ys u₁ → DecRun c s₂ ys zs u₂ →
    zs = xs ∧ ∃ h₁ h₂ : Channel, u₁.channels[e]? = some h₁ ∧ u₂.channels[c]? = some h₂ ∧
      h₁.hist = h₂.hist ∧ h₁.pos = h₂.pos

/-- R31: after n byte steps of a fresh channel with original bytes x_0 .. x_{n-1} (an encoder's inputs, a
decoder's outputs), POS is `trunc_8(-n)`, each slot holds the latest original byte of its index, or 0
where there is none, and the next lookback byte is `x_{n-d}`.
R31 is an inference the spec marks as its own (derived from R29, R30, R160 and R180). -/
def Obligations.HistoryHoldsLatestBytes : Prop :=
  ∀ (c d : Nat) (s u : State) (xs ys : List Byte),
    ((s.fresh c .encoder d ∧ EncRun c s xs ys u) ∨ (s.fresh c .decoder d ∧ DecRun c s ys xs u)) →
    ∃ h : Channel, u.channels[c]? = some h ∧ h.historyIs xs ∧ h.lookback = lagged xs d xs.length

/-! ## Errors -/

/-- R201: the code in LAST after a command is that of the first check that fails, in the rule's order, or
0 when none does; a word that fails decode reports 1 before any other check. -/
def Obligations.FirstFailingCheckIsReported : Prop :=
  (∀ (i : Instr) (s t : State), exec i s = .next t → firstCode (failedChecks i s) t.status.last) ∧
  (∀ (w : Word) (s t : State) (rest : List HostAction), decode w = none → s.port = .command w :: rest →
    step s = .next t → t.status.last = 1)

/-- R203: a command that raises an error sets LAST to its code, 1..7, sets STICKY, counts itself in
cmdidx, and changes nothing else; and what an earlier error left in STATUS never changes what a later
command does or reports. -/
def Obligations.ErrorChangesOnlyStatus : Prop :=
  (∀ (i : Instr) (s t : State), exec i s = .next t → t.status.last ≠ 0 →
    t.status.last.toNat ≤ 7 ∧
    t = { s with status := ⟨t.status.last, true⟩, cmdidx := s.cmdidx + 1 }) ∧
  (∀ (w : Word) (s : State) (rest : List HostAction), decode w = none → s.port = .command w :: rest →
    step s = .next { s with port := rest, status := ⟨1, true⟩, cmdidx := s.cmdidx + 1 }) ∧
  (∀ (i : Instr) (s t : State) (st : Status), exec i s = .next t →
    ∃ t', exec i { s with status := st } = .next t' ∧ t' = { t with status := t'.status } ∧
      t'.status.last = t.status.last)

/-- R204: a command that raises no error sets LAST to 0 and leaves STICKY as it was. -/
def Obligations.SuccessClearsLastOnly : Prop :=
  ∀ (i : Instr) (s t : State), exec i s = .next t → firstCode (failedChecks i s) 0 →
    t.status = ⟨0, s.status.sticky⟩

/-- Every command answers a next state and counts itself in cmdidx, whatever it does (R21). That no step
ever ends in a fault or a refusal is what the model deduces from the spec (log 9, from "an error never
stops the block" in 60_exceptions.md section 2), and that a step with nothing left from the host answers at
all is its choice too (log 5). -/
def Obligations.NothingStopsTheBlock : Prop :=
  (∀ (i : Instr) (s : State), ∃ t, exec i s = .next t ∧ t.cmdidx = s.cmdidx + 1 ∧ t.port = s.port) ∧
  (∀ s : State, ∃ t, step s = .next t)

/-- R24: only a reset clears STICKY, and LAST is 0..7 after every step if it was before. -/
def Obligations.StickyClearedOnlyByReset : Prop :=
  ∀ (s t : State), step s = .next t →
    (s.status.sticky = true → t.status.sticky = false → ∃ rest, s.port = .reset :: rest) ∧
    (s.status.last.toNat ≤ 7 → t.status.last.toNat ≤ 7)

/-! ## Frames -/

/-- R22, R23: the frame of the registers, for every command. An operand register changes only by its own
SET command, RES only by CRCL, DENCB and DDECB; no command touches the host's list. -/
def Obligations.RegisterFrame : Prop :=
  ∀ (i : Instr) (s t : State), exec i s = .next t →
    ((∀ v, i ≠ .setsrc v) → t.src = s.src) ∧ ((∀ v, i ≠ .setdst v) → t.dst = s.dst) ∧
    ((∀ v, i ≠ .setlen v) → t.len = s.len) ∧ ((∀ v, i ≠ .setcap v) → t.cap = s.cap) ∧
    ((∀ v, i ≠ .crcl v) → (∀ c x, i ≠ .dencb c x) → (∀ c x, i ≠ .ddecb c x) → t.res = s.res) ∧
    t.port = s.port

/-- R52: the frame of DMEM, for every command. DENC leaves every byte outside the LEN bytes from DST up,
DDEC every byte outside the LEN bytes from SRC up, and every other command every byte; MEM_BYTES never
changes. -/
def Obligations.MemoryFrame : Prop :=
  ∀ (i : Instr) (s t : State), exec i s = .next t →
    t.dmem.size = s.dmem.size ∧
    ∀ a : Nat,
      ((∃ c, i = .denc c) → (a < s.dst.toNat ∨ s.dst.toNat + s.len.toNat ≤ a)) →
      ((∃ c, i = .ddec c) → (a < s.src.toNat ∨ s.src.toNat + s.len.toNat ≤ a)) →
      t.dmem.read a = s.dmem.read a

/-- R26, R27, R28: VALID, DIR and DIST of a channel change only by DINITE, DINITD and DREL on it; the
number of channels never changes. -/
def Obligations.ConfigurationFrame : Prop :=
  ∀ (i : Instr) (s t : State), exec i s = .next t →
    t.nch = s.nch ∧
    ∀ (c : Nat) (h h' : Channel), s.channels[c]? = some h → t.channels[c]? = some h' →
      (∀ d, i ≠ .dinite c d) → (∀ d, i ≠ .dinitd c d) → i ≠ .drel c →
      h'.valid = h.valid ∧ h'.dir = h.dir ∧ h'.dist = h.dist

/-! ## Invariants -/

/-- R10, R24, R28, R50: legal parameters, DMEM in canonical form inside MEM_BYTES, every channel legal and
STATUS legal are kept by every step, from every state that has them. -/
def Obligations.StepKeepsInvariant : Prop :=
  ∀ s t : State, s.Inv → step s = .next t → t.Inv

/-- R39: the invariant holds after power-up with every legal pair of parameters, and at `State.reset`. -/
def Obligations.ResetHasInvariant : Prop :=
  (∀ nch memBytes : Nat, 1 ≤ nch → nch ≤ 16 → 1 ≤ memBytes → memBytes ≤ 2 ^ 24 →
    (State.powerUp nch memBytes).Inv) ∧ State.reset.Inv

/-- R10, R35: NCH and MEM_BYTES are constant: no step changes either. -/
def Obligations.ParametersAreConstant : Prop :=
  ∀ s t : State, step s = .next t → t.nch = s.nch ∧ t.dmem.size = s.dmem.size

/-! ## Runs -/

/-- R21, R238: each step keeps the length of the run's list of command words, but for a reset, which ends
one run and begins the next with cmdidx 0 (log 13); a command moves cmdidx up by one, and anything else but
a reset leaves it. -/
def Obligations.StepKeepsRunLength : Prop :=
  ∀ s t : State, step s = .next t →
    (s.port.head? ≠ some .reset → t.runLength = s.runLength) ∧
    (s.port.head? = some .reset → t.cmdidx = 0) ∧
    ((∃ w, s.port.head? = some (.command w)) → t.cmdidx = s.cmdidx + 1) ∧
    ((∀ w, s.port.head? ≠ some (.command w)) → s.port.head? ≠ some .reset → t.cmdidx = s.cmdidx)

/-- R238: from every state there is exactly one run to its end. It takes the host's list up to and with the
run's last command and nothing after it, ends with cmdidx equal to the length of the run's list of command
words, and has one code for each command. STICKY at the end is 1 exactly when it was 1 at the start or some
command raised an error, so from STICKY 0 (after reset) STICKY 0 at the end says that every command
succeeded. -/
def Obligations.RunEndsAtListLength : Prop :=
  ∀ s : State, ∃ (codes : List (BitVec 4)) (u : State), RunTo s codes u ∧
    (∀ codes' u', RunTo s codes' u' → codes' = codes ∧ u' = u) ∧
    u.cmdidx = s.runLength ∧ codes.length = commandsLeft s.port ∧
    (∃ taken : List HostAction, s.port = taken ++ u.port ∧ commandsLeft u.port = 0 ∧
      (taken = [] ∨ ∃ w, taken.getLast? = some (.command w))) ∧
    (u.status.sticky = true ↔ s.status.sticky = true ∨ ∃ k ∈ codes, k ≠ 0) ∧
    (s.noError → (u.noError ↔ ∀ k ∈ codes, k = 0))

/-- R31 as an invariant of the step, for every channel and every step (R31 is an inference the spec marks as
its own, derived from R29, R30, R160 and R180): if the channel's POS and HIST are what the original bytes
`xs` leave, then after the step they are what `xs` and the step's own original bytes leave, or none at all
after a construction, a DREL or a reset. -/
def Obligations.StepExtendsHistory : Prop :=
  ∀ (s t : State) (c : Nat) (h : Channel) (xs : List Byte),
    s.channels[c]? = some h → h.historyIs xs → step s = .next t →
    ∃ h' : Channel, t.channels[c]? = some h' ∧ h'.historyIs (stepStream c s t xs)
end

