-- ==== Sys2Proof/Laws/State.lean ====
section
/-! SUPPORT. One lemma per field per update of State, each true by rfl, so that no later proof unfolds a
record update. -/

namespace Sys2Proof.Machine

/-! ### `raiseError` -/

@[simp] theorem raiseError_channels (e : ErrorCode) (s : State) : (raiseError e s).channels = s.channels := rfl
@[simp] theorem raiseError_src (e : ErrorCode) (s : State) : (raiseError e s).src = s.src := rfl
@[simp] theorem raiseError_dst (e : ErrorCode) (s : State) : (raiseError e s).dst = s.dst := rfl
@[simp] theorem raiseError_len (e : ErrorCode) (s : State) : (raiseError e s).len = s.len := rfl
@[simp] theorem raiseError_cap (e : ErrorCode) (s : State) : (raiseError e s).cap = s.cap := rfl
@[simp] theorem raiseError_res (e : ErrorCode) (s : State) : (raiseError e s).res = s.res := rfl
@[simp] theorem raiseError_status (e : ErrorCode) (s : State) : (raiseError e s).status = ⟨e.code, true⟩ := rfl
@[simp] theorem raiseError_dmem (e : ErrorCode) (s : State) : (raiseError e s).dmem = s.dmem := rfl
@[simp] theorem raiseError_cmdidx (e : ErrorCode) (s : State) : (raiseError e s).cmdidx = s.cmdidx + 1 := rfl
@[simp] theorem raiseError_port (e : ErrorCode) (s : State) : (raiseError e s).port = s.port := rfl

/-! ### `succeed` -/

@[simp] theorem succeed_channels (s : State) : (succeed s).channels = s.channels := rfl
@[simp] theorem succeed_src (s : State) : (succeed s).src = s.src := rfl
@[simp] theorem succeed_dst (s : State) : (succeed s).dst = s.dst := rfl
@[simp] theorem succeed_len (s : State) : (succeed s).len = s.len := rfl
@[simp] theorem succeed_cap (s : State) : (succeed s).cap = s.cap := rfl
@[simp] theorem succeed_res (s : State) : (succeed s).res = s.res := rfl
@[simp] theorem succeed_status (s : State) : (succeed s).status = ⟨0, s.status.sticky⟩ := rfl
@[simp] theorem succeed_dmem (s : State) : (succeed s).dmem = s.dmem := rfl
@[simp] theorem succeed_cmdidx (s : State) : (succeed s).cmdidx = s.cmdidx + 1 := rfl
@[simp] theorem succeed_port (s : State) : (succeed s).port = s.port := rfl

/-! ### `setChannel` -/

@[simp] theorem setChannel_channels (s : State) (ch : Nat) (c : Channel) : (s.setChannel ch c).channels = s.channels.set ch c := rfl
@[simp] theorem setChannel_src (s : State) (ch : Nat) (c : Channel) : (s.setChannel ch c).src = s.src := rfl
@[simp] theorem setChannel_dst (s : State) (ch : Nat) (c : Channel) : (s.setChannel ch c).dst = s.dst := rfl
@[simp] theorem setChannel_len (s : State) (ch : Nat) (c : Channel) : (s.setChannel ch c).len = s.len := rfl
@[simp] theorem setChannel_cap (s : State) (ch : Nat) (c : Channel) : (s.setChannel ch c).cap = s.cap := rfl
@[simp] theorem setChannel_res (s : State) (ch : Nat) (c : Channel) : (s.setChannel ch c).res = s.res := rfl
@[simp] theorem setChannel_status (s : State) (ch : Nat) (c : Channel) : (s.setChannel ch c).status = s.status := rfl
@[simp] theorem setChannel_dmem (s : State) (ch : Nat) (c : Channel) : (s.setChannel ch c).dmem = s.dmem := rfl
@[simp] theorem setChannel_cmdidx (s : State) (ch : Nat) (c : Channel) : (s.setChannel ch c).cmdidx = s.cmdidx := rfl
@[simp] theorem setChannel_port (s : State) (ch : Nat) (c : Channel) : (s.setChannel ch c).port = s.port := rfl

/-! ### `afterError` -/

@[simp] theorem afterError_channels (s : State) (k : BitVec 4) : (s.afterError k).channels = s.channels := rfl
@[simp] theorem afterError_src (s : State) (k : BitVec 4) : (s.afterError k).src = s.src := rfl
@[simp] theorem afterError_dst (s : State) (k : BitVec 4) : (s.afterError k).dst = s.dst := rfl
@[simp] theorem afterError_len (s : State) (k : BitVec 4) : (s.afterError k).len = s.len := rfl
@[simp] theorem afterError_cap (s : State) (k : BitVec 4) : (s.afterError k).cap = s.cap := rfl
@[simp] theorem afterError_res (s : State) (k : BitVec 4) : (s.afterError k).res = s.res := rfl
@[simp] theorem afterError_status (s : State) (k : BitVec 4) : (s.afterError k).status = ⟨k, true⟩ := rfl
@[simp] theorem afterError_dmem (s : State) (k : BitVec 4) : (s.afterError k).dmem = s.dmem := rfl
@[simp] theorem afterError_cmdidx (s : State) (k : BitVec 4) : (s.afterError k).cmdidx = s.cmdidx + 1 := rfl
@[simp] theorem afterError_port (s : State) (k : BitVec 4) : (s.afterError k).port = s.port := rfl

/-! ### `afterSuccess` -/

@[simp] theorem afterSuccess_channels (s : State) : (s.afterSuccess).channels = s.channels := rfl
@[simp] theorem afterSuccess_src (s : State) : (s.afterSuccess).src = s.src := rfl
@[simp] theorem afterSuccess_dst (s : State) : (s.afterSuccess).dst = s.dst := rfl
@[simp] theorem afterSuccess_len (s : State) : (s.afterSuccess).len = s.len := rfl
@[simp] theorem afterSuccess_cap (s : State) : (s.afterSuccess).cap = s.cap := rfl
@[simp] theorem afterSuccess_res (s : State) : (s.afterSuccess).res = s.res := rfl
@[simp] theorem afterSuccess_status (s : State) : (s.afterSuccess).status = ⟨0, s.status.sticky⟩ := rfl
@[simp] theorem afterSuccess_dmem (s : State) : (s.afterSuccess).dmem = s.dmem := rfl
@[simp] theorem afterSuccess_cmdidx (s : State) : (s.afterSuccess).cmdidx = s.cmdidx + 1 := rfl
@[simp] theorem afterSuccess_port (s : State) : (s.afterSuccess).port = s.port := rfl

/-! ### `deliver` -/

@[simp] theorem deliver_channels (s : State) (w : Word) : (s.deliver w).channels = s.channels := rfl
@[simp] theorem deliver_src (s : State) (w : Word) : (s.deliver w).src = s.src := rfl
@[simp] theorem deliver_dst (s : State) (w : Word) : (s.deliver w).dst = s.dst := rfl
@[simp] theorem deliver_len (s : State) (w : Word) : (s.deliver w).len = s.len := rfl
@[simp] theorem deliver_cap (s : State) (w : Word) : (s.deliver w).cap = s.cap := rfl
@[simp] theorem deliver_res (s : State) (w : Word) : (s.deliver w).res = s.res := rfl
@[simp] theorem deliver_status (s : State) (w : Word) : (s.deliver w).status = s.status := rfl
@[simp] theorem deliver_dmem (s : State) (w : Word) : (s.deliver w).dmem = s.dmem := rfl
@[simp] theorem deliver_cmdidx (s : State) (w : Word) : (s.deliver w).cmdidx = s.cmdidx := rfl
@[simp] theorem deliver_port (s : State) (w : Word) : (s.deliver w).port = .command w :: s.port := rfl

/-! ### `hostReset` -/

@[simp] theorem hostReset_channels (s : State) : (s.hostReset).channels = List.replicate s.nch Channel.empty := rfl
@[simp] theorem hostReset_src (s : State) : (s.hostReset).src = 0 := rfl
@[simp] theorem hostReset_dst (s : State) : (s.hostReset).dst = 0 := rfl
@[simp] theorem hostReset_len (s : State) : (s.hostReset).len = 0 := rfl
@[simp] theorem hostReset_cap (s : State) : (s.hostReset).cap = 0 := rfl
@[simp] theorem hostReset_res (s : State) : (s.hostReset).res = 0 := rfl
@[simp] theorem hostReset_status (s : State) : (s.hostReset).status = ⟨0, false⟩ := rfl
@[simp] theorem hostReset_dmem (s : State) : (s.hostReset).dmem = s.dmem := rfl
@[simp] theorem hostReset_cmdidx (s : State) : (s.hostReset).cmdidx = 0 := rfl
@[simp] theorem hostReset_port (s : State) : (s.hostReset).port = s.port := rfl

/-! ### `writeMem` -/

/-- A host write changes DMEM at most. -/
theorem writeMem_eq (s : State) (a : Addr) (b : Byte) :
    s.writeMem a b = { s with dmem := if a.toNat < s.dmem.size then s.dmem.write a.toNat b else s.dmem } := by
  unfold State.writeMem; split <;> rfl

@[simp] theorem writeMem_channels (s : State) (a : Addr) (b : Byte) : (s.writeMem a b).channels = s.channels := by
  rw [writeMem_eq]
@[simp] theorem writeMem_src (s : State) (a : Addr) (b : Byte) : (s.writeMem a b).src = s.src := by
  rw [writeMem_eq]
@[simp] theorem writeMem_dst (s : State) (a : Addr) (b : Byte) : (s.writeMem a b).dst = s.dst := by
  rw [writeMem_eq]
@[simp] theorem writeMem_len (s : State) (a : Addr) (b : Byte) : (s.writeMem a b).len = s.len := by
  rw [writeMem_eq]
@[simp] theorem writeMem_cap (s : State) (a : Addr) (b : Byte) : (s.writeMem a b).cap = s.cap := by
  rw [writeMem_eq]
@[simp] theorem writeMem_res (s : State) (a : Addr) (b : Byte) : (s.writeMem a b).res = s.res := by
  rw [writeMem_eq]
@[simp] theorem writeMem_status (s : State) (a : Addr) (b : Byte) : (s.writeMem a b).status = s.status := by
  rw [writeMem_eq]
@[simp] theorem writeMem_cmdidx (s : State) (a : Addr) (b : Byte) : (s.writeMem a b).cmdidx = s.cmdidx := by
  rw [writeMem_eq]
@[simp] theorem writeMem_port (s : State) (a : Addr) (b : Byte) : (s.writeMem a b).port = s.port := by
  rw [writeMem_eq]

/-! ### Channels and STATUS -/

@[simp] theorem store_valid (c : Channel) (x : Byte) : (c.store x).valid = c.valid := rfl
@[simp] theorem store_dir (c : Channel) (x : Byte) : (c.store x).dir = c.dir := rfl
@[simp] theorem store_dist (c : Channel) (x : Byte) : (c.store x).dist = c.dist := rfl
@[simp] theorem construct_valid (dir : Dir) (d : BitVec 9) : (Channel.construct dir d).valid = true := rfl
@[simp] theorem construct_dir (dir : Dir) (d : BitVec 9) : (Channel.construct dir d).dir = dir := rfl
@[simp] theorem construct_dist (dir : Dir) (d : BitVec 9) : (Channel.construct dir d).dist = d := rfl
@[simp] theorem construct_pos (dir : Dir) (d : BitVec 9) : (Channel.construct dir d).pos = 0 := rfl
@[simp] theorem write_size (m : Memory) (a : Nat) (b : Byte) : (m.write a b).size = m.size := rfl

/-- The number of channels is the length of the array. -/
@[simp] theorem setChannel_nch (s : State) (ch : Nat) (c : Channel) : (s.setChannel ch c).nch = s.nch := by
  simp [State.nch]

/-- An error leaves what `afterError` writes out. -/
theorem raiseError_eq (e : ErrorCode) (s : State) : raiseError e s = s.afterError e.code := rfl

/-- A success leaves what `afterSuccess` writes out. -/
theorem succeed_eq (s : State) : succeed s = s.afterSuccess := rfl

/-- Every error code is one of 1..7. -/
theorem code_ne_zero (e : ErrorCode) : e.code ≠ 0 := by cases e <;> decide

theorem code_le (e : ErrorCode) : e.code.toNat ≤ 7 := by cases e <;> decide

end Sys2Proof.Machine
end

