-- ==== Sys2Proof/Laws/Memory.lean ====
section
/-! SUPPORT. The laws of DMEM: a read after a write, and that every memory operation keeps the canonical
form. -/

namespace Sys2Proof.Machine

theorem cellsGet_cellsSet_self (l : List Host.Cell) (a : Nat) (b : Byte) :
    cellsGet (cellsSet l a b) a = some b := by
  induction l with
  | nil => simp [cellsSet, cellsGet]
  | cons x rest ih =>
    obtain ⟨k, v⟩ := x
    simp only [cellsSet]
    split
    · simp [cellsGet]
    · split
      · simp [cellsGet]
      · rw [cellsGet, if_neg (by omega), ih]

theorem cellsGet_cellsSet_ne (l : List Host.Cell) {a x : Nat} (b : Byte) (h : x ≠ a) :
    cellsGet (cellsSet l a b) x = cellsGet l x := by
  induction l with
  | nil => simp [cellsSet, cellsGet, Ne.symm h]
  | cons y rest ih =>
    obtain ⟨k, v⟩ := y
    simp only [cellsSet]
    split
    · simp [cellsGet, Ne.symm h]
    · split
      · subst_vars; simp [cellsGet, Ne.symm h]
      · simp [cellsGet, ih]

/-- Every entry of the list after a write is the written one or was there before. -/
theorem mem_cellsSet (l : List Host.Cell) (a : Nat) (b : Byte) (x : Host.Cell) (h : x ∈ cellsSet l a b) :
    x = (a, b) ∨ x ∈ l := by
  induction l with
  | nil => simpa [cellsSet] using h
  | cons y rest ih =>
    obtain ⟨k, v⟩ := y
    simp only [cellsSet] at h
    split at h
    · simpa using h
    · split at h
      · simp only [List.mem_cons] at h ⊢; tauto
      · simp only [List.mem_cons] at h ⊢
        rcases h with h | h
        · exact .inr (.inl h)
        · exact (ih h).imp id .inr

theorem pairwise_cellsSet (l : List Host.Cell) (a : Nat) (b : Byte)
    (h : l.Pairwise (fun x y => x.1 < y.1)) : (cellsSet l a b).Pairwise (fun x y => x.1 < y.1) := by
  induction l with
  | nil => simp [cellsSet]
  | cons y rest ih =>
    obtain ⟨k, v⟩ := y
    obtain ⟨hk, hr⟩ := List.pairwise_cons.mp h
    simp only [cellsSet]
    split
    · rename_i hak
      refine List.pairwise_cons.mpr ⟨fun x hx => ?_, h⟩
      rcases List.mem_cons.mp hx with rfl | hx
      · exact hak
      · exact Nat.lt_trans hak (hk x hx)
    · split
      · subst_vars; exact List.pairwise_cons.mpr ⟨hk, hr⟩
      · refine List.pairwise_cons.mpr ⟨fun x hx => ?_, ih hr⟩
        rcases mem_cellsSet rest a b x hx with rfl | hx
        · show k < a; omega
        · exact hk x hx

/-- Reading the byte just written gives it. -/
@[simp] theorem read_write_self (m : Memory) (a : Nat) (b : Byte) : (m.write a b).read a = b := by
  simp [Memory.read, Memory.write, cellsGet_cellsSet_self]

/-- A write leaves every other byte alone. -/
theorem read_write_ne (m : Memory) {a x : Nat} (b : Byte) (h : x ≠ a) :
    (m.write a b).read x = m.read x := by
  simp [Memory.read, Memory.write, cellsGet_cellsSet_ne m.cells b h]

/-- A read of any address after a write. -/
theorem read_write (m : Memory) (a x : Nat) (b : Byte) :
    (m.write a b).read x = if x = a then b else m.read x := by
  split
  · subst_vars; exact read_write_self m _ b
  · exact read_write_ne m b ‹_›

/-- A write of a byte DMEM has keeps the canonical form. -/
theorem write_wf {m : Memory} {a : Nat} (b : Byte) (h : m.wf) (ha : a < m.size) : (m.write a b).wf := by
  refine ⟨pairwise_cellsSet m.cells a b h.1, fun x hx => ?_⟩
  rcases mem_cellsSet m.cells a b x hx with rfl | hx
  · exact ha
  · exact h.2 x hx

/-- DMEM at power-up is in canonical form. -/
theorem powerUp_wf (n : Nat) : (Memory.mk n []).wf := by simp [Memory.wf]

/-- At power-up every byte is the free value. -/
@[simp] theorem powerUp_read (n a : Nat) : (Memory.mk n []).read a = Config.powerUpByte a := rfl

/-- A host write keeps the canonical form. -/
theorem writeMem_wf {s : State} (a : Addr) (b : Byte) (h : s.dmem.wf) : (s.writeMem a b).dmem.wf := by
  unfold State.writeMem
  split
  · exact write_wf b h ‹_›
  · exact h

@[simp] theorem writeMem_size (s : State) (a : Addr) (b : Byte) :
    (s.writeMem a b).dmem.size = s.dmem.size := by
  unfold State.writeMem; split <;> rfl

end Sys2Proof.Machine
end

