-- ==== Sys2Proof/Laws/Channel.lean ====
section
/-! SUPPORT. The laws of bytes modulo 256, of a channel's history, and of the two byte steps. -/

namespace Sys2Proof.Machine

/-! ### Bytes modulo 256 -/

theorem trunc8_ofNat (n : Nat) : trunc8 (n : Int) = BitVec.ofNat 8 n := by
  simp [trunc8]

/-- `trunc_8(a - b)` is the 8-bit difference (R15). -/
theorem trunc8_sub (a b : Byte) : trunc8 (a.toNat - b.toNat) = a - b := by
  apply BitVec.eq_of_toInt_eq
  rw [trunc8, BitVec.toInt_ofInt, BitVec.toInt_sub, BitVec.toInt_eq_toNat_bmod, BitVec.toInt_eq_toNat_bmod,
    Int.sub_bmod_bmod, Int.bmod_sub_bmod]

/-- `trunc_8(a + b)` is the 8-bit sum (R15). -/
theorem trunc8_add (a b : Byte) : trunc8 (a.toNat + b.toNat) = a + b := by
  simp [trunc8, BitVec.ofInt_add]

/-- The cursor's step down (R29). -/
theorem trunc8_pred (p : BitVec 8) : trunc8 (p.toNat - 1) = p - 1 := by
  simpa using trunc8_sub p 1

/-! ### History -/

@[simp] theorem store_pos (c : Channel) (x : Byte) : (c.store x).pos = c.pos - 1 := trunc8_pred c.pos

/-- A stored byte is in slot POS; every other slot stays (R30). -/
theorem slot_store (c : Channel) (x j : Byte) :
    (c.store x).slot j = if j = c.pos then x else c.slot j := by
  simp only [Channel.slot, Channel.store, Vector.getElem_set, BitVec.toNat_inj, eq_comm]

@[simp] theorem slot_replicate (v : Bool) (dir : Dir) (d : BitVec 9) (p : BitVec 8) (j : Byte) :
    (Channel.mk v dir d p (Vector.replicate Config.histSize 0)).slot j = 0 := by
  simp [Channel.slot]

/-- Two histories with equal slots are equal. -/
theorem hist_ext {c d : Channel} (h : ∀ j, c.slot j = d.slot j) : c.hist = d.hist := by
  apply Vector.ext
  intro i hi
  have := h (BitVec.ofNat 8 i)
  have e : (BitVec.ofNat 8 i).toNat = i := by simp [Config.histSize] at hi ⊢; omega
  simpa [Channel.slot, e] using this

/-- The slot the lookback reads: `(DIST + POS) mod 256` (R16). -/
theorem lookback_eq (c : Channel) : c.lookback = c.slot (c.dist.setWidth 8 + c.pos) := by
  unfold Channel.lookback
  congr 1
  apply BitVec.eq_of_toNat_eq
  rw [← Nat.cast_add, trunc8_ofNat]
  simp [BitVec.toNat_add]

/-! ### The byte steps -/

@[simp] theorem encStep_fst (c : Channel) (x : Byte) : (encStep c x).1 = c.store x := rfl

@[simp] theorem encStep_snd (c : Channel) (x : Byte) : (encStep c x).2 = x - c.lookback :=
  trunc8_sub x c.lookback

@[simp] theorem decStep_snd (c : Channel) (y : Byte) : (decStep c y).2 = y + c.lookback :=
  trunc8_add y c.lookback

@[simp] theorem decStep_fst (c : Channel) (y : Byte) : (decStep c y).1 = c.store (y + c.lookback) := by
  show c.store (trunc8 (y.toNat + c.lookback.toNat)) = _
  rw [trunc8_add]

/-- Decoding an encoded byte on an equal channel gives the byte back and an equal channel (R182). -/
theorem decStep_encStep (c : Channel) (x : Byte) :
    decStep c (encStep c x).2 = ((encStep c x).1, x) := by
  apply Prod.ext <;> simp

/-! ### Legal channels -/

theorem empty_ok : Channel.empty.ok := by simp [Channel.ok, Channel.empty]

theorem store_ok {c : Channel} (x : Byte) (h : c.ok) (hv : c.valid = true) : (c.store x).ok := by
  refine ⟨fun _ => h.1 hv, fun hf => ?_⟩
  rw [store_valid, hv] at hf
  exact absurd hf (by decide)

end Sys2Proof.Machine
end

