-- ==== Sys2Proof/Laws/Chunk.lean ====
section
/-! SUPPORT. What a chunk of byte steps (20_memory.md R61) can do, whatever its byte step. -/

namespace Sys2Proof.Machine

variable (f : Channel → Byte → Channel × Byte)

@[simp] theorem runChunk_zero (a b : Nat) (cm : Channel × Memory) : runChunk f 0 a b cm = cm := rfl

theorem runChunk_succ (n a b : Nat) (c : Channel) (m : Memory) :
    runChunk f (n + 1) a b (c, m) =
      runChunk f n (a + 1) (b + 1) ((f c (m.read a)).1, m.write b (f c (m.read a)).2) := rfl

/-- A chunk of `n + k` bytes is the chunk of its first `n` bytes and then that of the other `k`. -/
theorem runChunk_add (n k a b : Nat) (cm : Channel × Memory) :
    runChunk f (n + k) a b cm = runChunk f k (a + n) (b + n) (runChunk f n a b cm) := by
  induction n generalizing a b cm with
  | zero => simp
  | succ n ih =>
    obtain ⟨c, m⟩ := cm
    rw [Nat.add_right_comm n 1 k, runChunk_succ, ih, runChunk_succ, Nat.add_comm n 1, ← Nat.add_assoc,
      ← Nat.add_assoc]

/-- The last byte step of a chunk. -/
theorem runChunk_last (n a b : Nat) (cm : Channel × Memory) :
    runChunk f (n + 1) a b cm =
      ((f (runChunk f n a b cm).1 ((runChunk f n a b cm).2.read (a + n))).1,
        (runChunk f n a b cm).2.write (b + n)
          (f (runChunk f n a b cm).1 ((runChunk f n a b cm).2.read (a + n))).2) := by
  rw [runChunk_add f n 1]; rfl

/-- A chunk leaves MEM_BYTES alone. -/
@[simp] theorem runChunk_size (n a b : Nat) (cm : Channel × Memory) :
    (runChunk f n a b cm).2.size = cm.2.size := by
  induction n generalizing a b cm with
  | zero => rfl
  | succ n ih => obtain ⟨c, m⟩ := cm; simp [runChunk_succ, ih]

/-- A chunk writes only the `n` bytes from `b` up. -/
theorem runChunk_read_outside (n a b x : Nat) (cm : Channel × Memory) (h : x < b ∨ b + n ≤ x) :
    (runChunk f n a b cm).2.read x = cm.2.read x := by
  induction n generalizing a b cm with
  | zero => rfl
  | succ n ih =>
    obtain ⟨c, m⟩ := cm
    rw [runChunk_succ, ih _ _ _ (by omega)]
    exact read_write_ne m _ (by omega)

/-- What a chunk leaves at the place of its byte `i`: what byte step `i` gave. -/
theorem runChunk_read_written (n a b : Nat) (cm : Channel × Memory) (i : Nat) (hi : i < n) :
    (runChunk f n a b cm).2.read (b + i) =
      (f (runChunk f i a b cm).1 ((runChunk f i a b cm).2.read (a + i))).2 := by
  induction n with
  | zero => omega
  | succ n ih =>
    rw [runChunk_last]
    by_cases h : i = n
    · subst h; exact read_write_self _ _ _
    · exact (read_write_ne _ _ (by omega)).trans (ih (by omega))

/-- A chunk inside DMEM keeps the canonical form. -/
theorem runChunk_wf (n a b : Nat) (cm : Channel × Memory) (h : cm.2.wf) (hb : b + n ≤ cm.2.size) :
    (runChunk f n a b cm).2.wf := by
  induction n generalizing a b cm with
  | zero => exact h
  | succ n ih =>
    obtain ⟨c, m⟩ := cm
    rw [runChunk_succ]
    simp only at h hb
    exact ih _ _ _ (write_wf _ h (by omega)) (by simp only [write_size]; omega)

/-- What every byte step keeps of a channel, a chunk keeps. -/
theorem runChunk_channel (P : Channel → Prop) (hP : ∀ c x, P c → P (f c x).1) (n a b : Nat)
    (cm : Channel × Memory) (h : P cm.1) : P (runChunk f n a b cm).1 := by
  induction n generalizing a b cm with
  | zero => exact h
  | succ n ih => obtain ⟨c, m⟩ := cm; rw [runChunk_succ]; exact ih _ _ _ (hP _ _ h)

end Sys2Proof.Machine
end

