-- ==== Sys2Proof/Laws/Command.lean ====
section
/-! SUPPORT. What each shared check can answer, what each command's body can answer, and from these
everything a command can do (`exec_cases`). -/

namespace Sys2Proof.Machine

/-! ### The checks -/

theorem channelOperand_ok {ch : Nat} {s : State} {c : Channel} :
    channelOperand ch s = .ok c ↔ s.channels[ch]? = some c := by
  unfold channelOperand
  cases s.channels[ch]? <;> simp

theorem channelOperand_error {ch : Nat} {s : State} {e : ErrorCode} :
    channelOperand ch s = .error e ↔ s.nch ≤ ch ∧ e = .invalidChannel := by
  unfold channelOperand
  cases h : s.channels[ch]? with
  | none =>
    have := List.getElem?_eq_none_iff.mp h
    simp [State.nch, this, eq_comm]
  | some c =>
    have := (List.getElem?_eq_some_iff.mp h).1
    simp only [reduceCtorEq, State.nch, false_iff, not_and]
    omega

theorem distanceOperand_ok {d : Int} {x : BitVec 9} :
    distanceOperand d = .ok x ↔ (1 ≤ d ∧ d ≤ 256) ∧ x = BitVec.ofInt 9 d := by
  unfold distanceOperand Config.distMin Config.distMax
  split
  · simp only [reduceCtorEq, false_iff, not_and]; omega
  · simp only [Except.ok.injEq, eq_comm, iff_and_self]; omega

theorem distanceOperand_error {d : Int} {e : ErrorCode} :
    distanceOperand d = .error e ↔ ¬ (1 ≤ d ∧ d ≤ 256) ∧ e = .invalidDistance := by
  unfold distanceOperand Config.distMin Config.distMax
  split
  · simp only [Except.error.injEq, eq_comm, iff_and_self]; omega
  · simp only [reduceCtorEq, false_iff, not_and]; omega

/-- A legal distance fits DIST. -/
theorem distance_toNat {d : Int} (h : 1 ≤ d ∧ d ≤ 256) : (BitVec.ofInt 9 d).toNat = d.toNat := by
  rw [BitVec.toNat_ofInt]; omega

/-- A data command has its channel: it exists, is constructed, and has the command's direction. -/
def HasData (s : State) (ch : Nat) (dir : Dir) (c : Channel) : Prop :=
  s.channels[ch]? = some c ∧ c.valid = true ∧ c.dir = dir

theorem dataChannel_ok {ch : Nat} {dir : Dir} {s : State} {c : Channel} :
    dataChannel ch dir s = .ok c ↔ HasData s ch dir c := by
  unfold dataChannel HasData
  cases h : channelOperand ch s with
  | error e =>
    have := (channelOperand_error.mp h).1
    simp only [reduceCtorEq, false_iff, not_and]
    intro h'; rw [← channelOperand_ok, h] at h'; simp at h'
  | ok c' =>
    rw [channelOperand_ok] at h
    rw [h]
    simp only [Option.some.injEq]
    split
    · simp_all; intro h; subst h; simp_all
    · split
      · simp_all; intro h; subst h; simp_all
      · simp_all; rintro rfl; exact ⟨‹_›, ‹_›⟩

/-- Where a data command's channel check stops: R201 orders 2, 4 and 5. -/
theorem dataChannel_error {ch : Nat} {dir : Dir} {s : State} {e : ErrorCode} :
    dataChannel ch dir s = .error e ↔
      (s.nch ≤ ch ∧ e = .invalidChannel) ∨
      ∃ c, s.channels[ch]? = some c ∧ ((c.valid = false ∧ e = .unconfigured) ∨
        (c.valid = true ∧ c.dir ≠ dir ∧ e = .wrongDirection)) := by
  unfold dataChannel
  cases h : channelOperand ch s with
  | error e' =>
    obtain ⟨h1, rfl⟩ := channelOperand_error.mp h
    have h2 : s.channels[ch]? = none := by simpa [State.nch] using h1
    simp only [h1, h2, true_and, reduceCtorEq, false_and, exists_false, or_false, Except.error.injEq]
    exact eq_comm
  | ok c' =>
    rw [channelOperand_ok] at h
    have h1 : ¬ s.nch ≤ ch := by
      have := (List.getElem?_eq_some_iff.mp h).1; simpa [State.nch] using this
    rw [h]
    simp only [h1, false_and, false_or, Option.some.injEq, exists_eq_left']
    split
    · simp_all; exact eq_comm
    · split <;> (simp_all <;> exact eq_comm)

theorem chunkInRange_false {s : State} {b n : Addr} : chunkInRange s b n = false ↔ outOfRange s b n := by
  simp [chunkInRange, outOfRange]

theorem chunkInRange_true {s : State} {b n : Addr} : chunkInRange s b n = true ↔ ¬ outOfRange s b n := by
  rw [← chunkInRange_false]; simp

/-! ### How a command ends -/

theorem finish_next {s t : State} {b : Except ErrorCode State} :
    finish s b = .next t ↔ (∃ u, b = .ok u ∧ t = succeed u) ∨ (∃ e, b = .error e ∧ t = raiseError e s) := by
  cases b <;> simp [finish, eq_comm]

/-! ### The bodies -/

/-- The body of every command. -/
def body : Instr → State → Except ErrorCode State
  | .nop, s => .ok s
  | .setsrc v, s => .ok { s with src := BitVec.ofNat 24 v }
  | .setdst v, s => .ok { s with dst := BitVec.ofNat 24 v }
  | .setlen v, s => .ok { s with len := BitVec.ofNat 24 v }
  | .setcap v, s => .ok { s with cap := BitVec.ofNat 24 v }
  | .crcl v, s => .ok { s with res := crcLookup (BitVec.ofNat 8 v) }
  | .dinite ch d, s => constructBody .encoder ch d s
  | .dinitd ch d, s => constructBody .decoder ch d s
  | .drel ch, s => releaseBody ch s
  | .dencb ch x, s => dencbBody ch x s
  | .denc ch, s => dencBody ch s
  | .ddecb ch y, s => ddecbBody ch y s
  | .ddec ch, s => ddecBody ch s

/-- Every meaning is its body, ended by `finish`. -/
theorem exec_eq_finish (i : Instr) (s : State) : exec i s = finish s (body i s) := by cases i <;> rfl

/-- What a command that succeeds writes, before STATUS and cmdidx. -/
def Effect : Instr → State → State → Prop
  | .nop, s, u => u = s
  | .setsrc v, s, u => u = { s with src := BitVec.ofNat 24 v }
  | .setdst v, s, u => u = { s with dst := BitVec.ofNat 24 v }
  | .setlen v, s, u => u = { s with len := BitVec.ofNat 24 v }
  | .setcap v, s, u => u = { s with cap := BitVec.ofNat 24 v }
  | .crcl v, s, u => u = { s with res := crcLookup (BitVec.ofNat 8 v) }
  | .dinite ch d, s, u =>
    ch < s.nch ∧ (1 ≤ d ∧ d ≤ 256) ∧ u = s.setChannel ch (Channel.construct .encoder (BitVec.ofInt 9 d))
  | .dinitd ch d, s, u =>
    ch < s.nch ∧ (1 ≤ d ∧ d ≤ 256) ∧ u = s.setChannel ch (Channel.construct .decoder (BitVec.ofInt 9 d))
  | .drel ch, s, u => ch < s.nch ∧ u = s.setChannel ch Channel.empty
  | .dencb ch x, s, u => ∃ c, HasData s ch .encoder c ∧
    u = { s.setChannel ch (encStep c (BitVec.ofNat 8 x)).1 with
          res := (encStep c (BitVec.ofNat 8 x)).2.setWidth 32 }
  | .denc ch, s, u => ∃ c, HasData s ch .encoder c ∧ s.len.toNat ≤ s.cap.toNat ∧
    ¬ outOfRange s s.src s.len ∧ ¬ outOfRange s s.dst s.len ∧
    u = { s.setChannel ch (runChunk encStep s.len.toNat s.src.toNat s.dst.toNat (c, s.dmem)).1 with
          dmem := (runChunk encStep s.len.toNat s.src.toNat s.dst.toNat (c, s.dmem)).2 }
  | .ddecb ch y, s, u => ∃ c, HasData s ch .decoder c ∧
    u = { s.setChannel ch (decStep c (BitVec.ofNat 8 y)).1 with
          res := (decStep c (BitVec.ofNat 8 y)).2.setWidth 32 }
  | .ddec ch, s, u => ∃ c, HasData s ch .decoder c ∧ ¬ outOfRange s s.src s.len ∧
    u = { s.setChannel ch (runChunk decStep s.len.toNat s.src.toNat s.src.toNat (c, s.dmem)).1 with
          dmem := (runChunk decStep s.len.toNat s.src.toNat s.src.toNat (c, s.dmem)).2 }

theorem constructBody_ok {dir : Dir} {ch : Nat} {d : Int} {s u : State} :
    constructBody dir ch d s = .ok u ↔
      ch < s.nch ∧ (1 ≤ d ∧ d ≤ 256) ∧ u = s.setChannel ch (Channel.construct dir (BitVec.ofInt 9 d)) := by
  unfold constructBody
  cases h : channelOperand ch s with
  | error e =>
    have := (channelOperand_error.mp h).1
    simp only [reduceCtorEq, false_iff]; omega
  | ok c =>
    have h1 : ch < s.nch := (List.getElem?_eq_some_iff.mp (channelOperand_ok.mp h)).1
    simp only [h1, true_and]
    cases h2 : distanceOperand d with
    | error e => have := (distanceOperand_error.mp h2).1; simp [this]
    | ok x => obtain ⟨h3, rfl⟩ := distanceOperand_ok.mp h2; simp [h3, eq_comm]

theorem constructBody_error {dir : Dir} {ch : Nat} {d : Int} {s : State} {e : ErrorCode} :
    constructBody dir ch d s = .error e ↔
      (s.nch ≤ ch ∧ e = .invalidChannel) ∨ (ch < s.nch ∧ ¬ (1 ≤ d ∧ d ≤ 256) ∧ e = .invalidDistance) := by
  unfold constructBody
  cases h : channelOperand ch s with
  | error e' =>
    obtain ⟨h1, rfl⟩ := channelOperand_error.mp h
    have h2 : ¬ ch < s.nch := by omega
    simp [h1, h2, eq_comm]
  | ok c =>
    have h1 : ch < s.nch := (List.getElem?_eq_some_iff.mp (channelOperand_ok.mp h)).1
    have h1' : ¬ s.nch ≤ ch := by omega
    simp only [h1, h1', false_and, true_and, false_or]
    cases h2 : distanceOperand d with
    | error e' => obtain ⟨h3, rfl⟩ := distanceOperand_error.mp h2; simp [h3, eq_comm]
    | ok x => have h3 := (distanceOperand_ok.mp h2).1; simp [h3]

theorem releaseBody_ok {ch : Nat} {s u : State} :
    releaseBody ch s = .ok u ↔ ch < s.nch ∧ u = s.setChannel ch Channel.empty := by
  unfold releaseBody
  cases h : channelOperand ch s with
  | error e =>
    have := (channelOperand_error.mp h).1
    simp only [reduceCtorEq, false_iff]; omega
  | ok c =>
    have h1 : ch < s.nch := (List.getElem?_eq_some_iff.mp (channelOperand_ok.mp h)).1
    simp [h1, eq_comm]

theorem releaseBody_error {ch : Nat} {s : State} {e : ErrorCode} :
    releaseBody ch s = .error e ↔ s.nch ≤ ch ∧ e = .invalidChannel := by
  rw [← channelOperand_error]
  unfold releaseBody
  cases h : channelOperand ch s <;> simp

theorem dencBody_ok {ch : Nat} {s u : State} : dencBody ch s = .ok u ↔ Effect (.denc ch) s u := by
  simp only [Effect, ← dataChannel_ok]
  unfold dencBody
  cases dataChannel ch .encoder s with
  | error e => simp
  | ok c =>
    simp only [Except.ok.injEq, exists_eq_left', ← chunkInRange_true, BitVec.lt_def]
    split
    · simp; omega
    · split
      · simp_all
      · split
        · simp_all
        · simp_all; exact eq_comm

/-- Where DENC stops, in the order of R164. -/
theorem dencBody_error {ch : Nat} {s : State} {e : ErrorCode} :
    dencBody ch s = .error e ↔
      dataChannel ch .encoder s = .error e ∨
      ∃ c, HasData s ch .encoder c ∧
        ((s.cap.toNat < s.len.toNat ∧ e = .bufferCapacity) ∨
         (s.len.toNat ≤ s.cap.toNat ∧ (outOfRange s s.src s.len ∨ outOfRange s s.dst s.len) ∧
           e = .addressRange)) := by
  simp only [← dataChannel_ok]
  unfold dencBody
  cases dataChannel ch .encoder s with
  | error e' => simp
  | ok c =>
    simp only [reduceCtorEq, false_or, Except.ok.injEq, exists_eq_left', BitVec.lt_def,
      ← chunkInRange_false]
    split
    · rename_i h
      have h' := Nat.not_le.mpr h
      simp only [h, h', true_and, false_and, or_false, Except.error.injEq]
      exact eq_comm
    · rename_i h
      have h' := Nat.le_of_not_lt h
      split
      · simp_all only [true_and, true_or, false_and, false_or, Except.error.injEq]; exact eq_comm
      · split
        · simp_all only [true_and, or_true, false_and, false_or, Except.error.injEq]; exact eq_comm
        · simp_all

theorem ddecBody_ok {ch : Nat} {s u : State} : ddecBody ch s = .ok u ↔ Effect (.ddec ch) s u := by
  simp only [Effect, ← dataChannel_ok]
  unfold ddecBody
  cases dataChannel ch .decoder s with
  | error e => simp
  | ok c =>
    simp only [Except.ok.injEq, exists_eq_left', ← chunkInRange_true]
    split <;> (simp_all <;> exact eq_comm)

/-- Where DDEC stops, in the order of R184. -/
theorem ddecBody_error {ch : Nat} {s : State} {e : ErrorCode} :
    ddecBody ch s = .error e ↔
      dataChannel ch .decoder s = .error e ∨
      ∃ c, HasData s ch .decoder c ∧ outOfRange s s.src s.len ∧ e = .addressRange := by
  simp only [← dataChannel_ok]
  unfold ddecBody
  cases dataChannel ch .decoder s with
  | error e' => simp
  | ok c =>
    simp only [reduceCtorEq, false_or, Except.ok.injEq, exists_eq_left', ← chunkInRange_false]
    split <;> (simp_all <;> exact eq_comm)

theorem dencbBody_ok {ch x : Nat} {s u : State} : dencbBody ch x s = .ok u ↔ Effect (.dencb ch x) s u := by
  simp only [Effect, ← dataChannel_ok]
  unfold dencbBody
  cases dataChannel ch .encoder s <;> simp [eq_comm]

theorem ddecbBody_ok {ch y : Nat} {s u : State} : ddecbBody ch y s = .ok u ↔ Effect (.ddecb ch y) s u := by
  simp only [Effect, ← dataChannel_ok]
  unfold ddecbBody
  cases dataChannel ch .decoder s <;> simp [eq_comm]

/-- The only errors of DENCB are those of its channel. -/
theorem dencbBody_error {ch x : Nat} {s : State} {e : ErrorCode} :
    dencbBody ch x s = .error e ↔ dataChannel ch .encoder s = .error e := by
  unfold dencbBody
  cases dataChannel ch .encoder s <;> simp

/-- The only errors of DDECB are those of its channel. -/
theorem ddecbBody_error {ch y : Nat} {s : State} {e : ErrorCode} :
    ddecbBody ch y s = .error e ↔ dataChannel ch .decoder s = .error e := by
  unfold ddecbBody
  cases dataChannel ch .decoder s <;> simp

/-- A body succeeds exactly with the command's effect. -/
theorem body_ok {i : Instr} {s u : State} : body i s = .ok u ↔ Effect i s u := by
  cases i with
  | dinite ch d => exact constructBody_ok
  | dinitd ch d => exact constructBody_ok
  | drel ch => exact releaseBody_ok
  | dencb ch x => exact dencbBody_ok
  | denc ch => exact dencBody_ok
  | ddecb ch y => exact ddecbBody_ok
  | ddec ch => exact ddecBody_ok
  | _ => simp [body, Effect, eq_comm]

/-- No command's body reads STATUS (R203): with another STATUS it gives the same, that STATUS kept. -/
theorem body_status (i : Instr) (s : State) (st : Status) :
    body i { s with status := st } =
      match body i s with | .ok u => .ok { u with status := st } | .error e => .error e := by
  have ce (ch) : channelOperand ch { s with status := st } = channelOperand ch s := rfl
  have de (ch d) : dataChannel ch d { s with status := st } = dataChannel ch d s := rfl
  cases i <;> (try rfl) <;> simp only [body]
  case dinite ch d =>
    unfold constructBody; rw [ce]; cases channelOperand ch s <;> [rfl; (cases distanceOperand d <;> rfl)]
  case dinitd ch d =>
    unfold constructBody; rw [ce]; cases channelOperand ch s <;> [rfl; (cases distanceOperand d <;> rfl)]
  case drel ch => unfold releaseBody; rw [ce]; cases channelOperand ch s <;> rfl
  case dencb ch x => unfold dencbBody; rw [de]; cases dataChannel ch .encoder s <;> rfl
  case ddecb ch x => unfold ddecbBody; rw [de]; cases dataChannel ch .decoder s <;> rfl
  case denc ch =>
    unfold dencBody; rw [de]
    cases dataChannel ch .encoder s with
    | error e => rfl
    | ok c =>
      change (if s.cap < s.len then _ else if chunkInRange s s.src s.len = false then _
        else if chunkInRange s s.dst s.len = false then _ else _) = _
      dsimp only
      split
      · rfl
      · split
        · rfl
        · split <;> rfl
  case ddec ch =>
    unfold ddecBody; rw [de]
    cases dataChannel ch .decoder s with
    | error e => rfl
    | ok c =>
      change (if chunkInRange s s.src s.len = false then _ else _) = _
      dsimp only
      split <;> rfl

/-! ### Everything a command can do -/

/-- A command that answers a next state has either had its effect, or raised an error and written
nothing but STATUS and cmdidx. -/
theorem exec_cases {i : Instr} {s t : State} :
    exec i s = .next t ↔
      (∃ u, Effect i s u ∧ t = succeed u) ∨ (∃ e, body i s = .error e ∧ t = raiseError e s) := by
  simp only [exec_eq_finish, finish_next, body_ok]

/-- A command that had its effect. -/
theorem exec_of_effect {i : Instr} {s u : State} (h : Effect i s u) : exec i s = .next (succeed u) :=
  exec_cases.mpr (.inl ⟨u, h, rfl⟩)

/-- A command that raised an error. -/
theorem exec_of_error {i : Instr} {s : State} {e : ErrorCode} (h : body i s = .error e) :
    exec i s = .next (raiseError e s) :=
  exec_cases.mpr (.inr ⟨e, h, rfl⟩)

/-- A command whose LAST is 0 has had its effect. -/
theorem effect_of_success {i : Instr} {s t : State} (h : exec i s = .next t) (h0 : t.status.last = 0) :
    ∃ u, Effect i s u ∧ t = succeed u := by
  rcases exec_cases.mp h with h | ⟨e, -, rfl⟩
  · exact h
  · exact absurd h0 (code_ne_zero e)

/-- What no effect touches, and which command alone writes each register. -/
theorem effect_frame {i : Instr} {s u : State} (he : Effect i s u) :
    u.status = s.status ∧ u.cmdidx = s.cmdidx ∧ u.port = s.port ∧ u.nch = s.nch ∧
    u.dmem.size = s.dmem.size ∧
    ((∀ v, i ≠ .setsrc v) → u.src = s.src) ∧ ((∀ v, i ≠ .setdst v) → u.dst = s.dst) ∧
    ((∀ v, i ≠ .setlen v) → u.len = s.len) ∧ ((∀ v, i ≠ .setcap v) → u.cap = s.cap) ∧
    ((∀ v, i ≠ .crcl v) → (∀ c x, i ≠ .dencb c x) → (∀ c x, i ≠ .ddecb c x) → u.res = s.res) := by
  cases i <;> simp only [Effect] at he
  case dencb => obtain ⟨c, -, rfl⟩ := he; simp [State.nch]
  case ddecb => obtain ⟨c, -, rfl⟩ := he; simp [State.nch]
  case denc => obtain ⟨c, -, -, -, -, rfl⟩ := he; simp [State.nch]
  case ddec => obtain ⟨c, -, -, rfl⟩ := he; simp [State.nch]
  case dinite => rw [he.2.2]; simp [State.nch]
  case dinitd => rw [he.2.2]; simp [State.nch]
  case drel => rw [he.2]; simp [State.nch]
  all_goals subst he; simp [State.nch]

/-- An effect writes at most the one channel its command names. -/
theorem effect_channels {i : Instr} {s u : State} (h : Effect i s u) :
    u.channels = s.channels ∨ ∃ ch c, namedChannel i = some ch ∧ u.channels = s.channels.set ch c := by
  cases i <;> simp only [Effect] at h
  case dinite ch d => exact .inr ⟨ch, _, rfl, by rw [h.2.2]; rfl⟩
  case dinitd ch d => exact .inr ⟨ch, _, rfl, by rw [h.2.2]; rfl⟩
  case drel ch => exact .inr ⟨ch, _, rfl, by rw [h.2]; rfl⟩
  case dencb ch x => obtain ⟨c, -, rfl⟩ := h; exact .inr ⟨ch, _, rfl, rfl⟩
  case ddecb ch x => obtain ⟨c, -, rfl⟩ := h; exact .inr ⟨ch, _, rfl, rfl⟩
  case denc ch => obtain ⟨c, -, -, -, -, rfl⟩ := h; exact .inr ⟨ch, _, rfl, rfl⟩
  case ddec ch => obtain ⟨c, -, -, rfl⟩ := h; exact .inr ⟨ch, _, rfl, rfl⟩
  all_goals subst h; exact .inl rfl

/-- A data command raises what its channel check raises. -/
theorem exec_of_dataChannel_error {i : Instr} {s : State} {ch : Nat} {dir : Dir} {e : ErrorCode}
    (hd : dataDir i = some (ch, dir)) (h : dataChannel ch dir s = .error e) :
    exec i s = .next (raiseError e s) := by
  apply exec_of_error
  cases i <;> simp [dataDir] at hd <;> obtain ⟨rfl, rfl⟩ := hd
  · exact dencbBody_error.mpr h
  · exact dencBody_error.mpr (.inl h)
  · exact ddecbBody_error.mpr h
  · exact ddecBody_error.mpr (.inl h)

end Sys2Proof.Machine
end

