-- ==== Sys2Proof/Laws/Decode.lean ====
section
/-! SUPPORT. The fields of a word built in one of the six formats (30_encoding.md R72), and the
per-opcode forms of the decoder. -/

namespace Sys2Proof

/-! ### Fields of a concatenation -/

theorem extract_append_low {n m : Nat} (x : BitVec n) (y : BitVec m) (lo k : Nat) (h : lo + k ≤ m) :
    (x ++ y).extractLsb' lo k = y.extractLsb' lo k := by
  apply BitVec.eq_of_getLsbD_eq
  intro i hi
  have : lo + i < m := by omega
  simp [BitVec.getLsbD_append, hi, this]

theorem extract_append_high {n m : Nat} (x : BitVec n) (y : BitVec m) (lo k : Nat) (h : m ≤ lo) :
    (x ++ y).extractLsb' lo k = x.extractLsb' (lo - m) k := by
  apply BitVec.eq_of_getLsbD_eq
  intro i hi
  have h1 : ¬ lo + i < m := by omega
  have h2 : lo + i - m = lo - m + i := by omega
  simp [BitVec.getLsbD_append, hi, h1, h2]

theorem extract_zero (n lo k : Nat) : (0 : BitVec n).extractLsb' lo k = 0 := by
  apply BitVec.eq_of_getLsbD_eq
  simp

/-- The six formats' fields, as bit vectors. -/
theorem field_formatN (op : BitVec 4) :
    field (formatN op) 28 4 = op ∧ field (formatN op) 0 28 = 0 := by
  unfold field formatN
  exact ⟨by rw [extract_append_high _ _ _ _ (by omega)]; simp,
    by rw [extract_append_low _ _ _ _ (by omega)]; simp⟩

theorem field_formatI24 (op : BitVec 4) (v : Nat) :
    field (formatI24 op v) 28 4 = op ∧ field (formatI24 op v) 24 4 = 0 ∧
      field (formatI24 op v) 0 24 = BitVec.ofNat 24 v := by
  unfold field formatI24
  exact ⟨by rw [extract_append_high _ _ _ _ (by omega), extract_append_high _ _ _ _ (by omega)]; simp,
    by rw [extract_append_high _ _ _ _ (by omega), extract_append_low _ _ _ _ (by omega)]; simp,
    by rw [extract_append_low _ _ _ _ (by omega)]; simp⟩

theorem field_formatB (op : BitVec 4) (v : Nat) :
    field (formatB op v) 28 4 = op ∧ field (formatB op v) 8 20 = 0 ∧
      field (formatB op v) 0 8 = BitVec.ofNat 8 v := by
  unfold field formatB
  exact ⟨by rw [extract_append_high _ _ _ _ (by omega), extract_append_high _ _ _ _ (by omega)]; simp,
    by rw [extract_append_high _ _ _ _ (by omega), extract_append_low _ _ _ _ (by omega)]; simp,
    by rw [extract_append_low _ _ _ _ (by omega)]; simp⟩

theorem field_formatCD (op : BitVec 4) (c : Nat) (d : Int) :
    field (formatCD op c d) 28 4 = op ∧ field (formatCD op c d) 24 4 = BitVec.ofNat 4 c ∧
      field (formatCD op c d) 16 8 = 0 ∧ field (formatCD op c d) 0 16 = BitVec.ofInt 16 d := by
  unfold field formatCD
  exact ⟨by rw [extract_append_high _ _ _ _ (by omega), extract_append_high _ _ _ _ (by omega),
      extract_append_high _ _ _ _ (by omega)]; simp,
    by rw [extract_append_high _ _ _ _ (by omega), extract_append_high _ _ _ _ (by omega),
      extract_append_low _ _ _ _ (by omega)]; simp,
    by rw [extract_append_high _ _ _ _ (by omega), extract_append_low _ _ _ _ (by omega)]; simp,
    by rw [extract_append_low _ _ _ _ (by omega)]; simp⟩

theorem field_formatC (op : BitVec 4) (c : Nat) :
    field (formatC op c) 28 4 = op ∧ field (formatC op c) 24 4 = BitVec.ofNat 4 c ∧
      field (formatC op c) 0 24 = 0 := by
  unfold field formatC
  exact ⟨by rw [extract_append_high _ _ _ _ (by omega), extract_append_high _ _ _ _ (by omega)]; simp,
    by rw [extract_append_high _ _ _ _ (by omega), extract_append_low _ _ _ _ (by omega)]; simp,
    by rw [extract_append_low _ _ _ _ (by omega)]; simp⟩

theorem field_formatCB (op : BitVec 4) (c v : Nat) :
    field (formatCB op c v) 28 4 = op ∧ field (formatCB op c v) 24 4 = BitVec.ofNat 4 c ∧
      field (formatCB op c v) 8 16 = 0 ∧ field (formatCB op c v) 0 8 = BitVec.ofNat 8 v := by
  unfold field formatCB
  exact ⟨by rw [extract_append_high _ _ _ _ (by omega), extract_append_high _ _ _ _ (by omega),
      extract_append_high _ _ _ _ (by omega)]; simp,
    by rw [extract_append_high _ _ _ _ (by omega), extract_append_high _ _ _ _ (by omega),
      extract_append_low _ _ _ _ (by omega)]; simp,
    by rw [extract_append_high _ _ _ _ (by omega), extract_append_low _ _ _ _ (by omega)]; simp,
    by rw [extract_append_low _ _ _ _ (by omega)]; simp⟩

/-! ### A word from its fields -/

/-- Two words with equal bits `w[31:lo]` and equal bits `w[lo-1:0]` are equal. -/
theorem word_ext (w v : Word) (lo : Nat) (hlo : lo ≤ 32)
    (h1 : field w lo (32 - lo) = field v lo (32 - lo)) (h2 : field w 0 lo = field v 0 lo) : w = v := by
  apply BitVec.eq_of_getLsbD_eq
  intro i hi
  by_cases h : i < lo
  · have := congrArg (fun x => x.getLsbD i) h2
    simpa [field, h] using this
  · have := congrArg (fun x => x.getLsbD (i - lo)) h1
    have e : lo + (i - lo) = i := by omega
    have l : i - lo < 32 - lo := by omega
    simpa [field, l, e] using this

/-- A field splits at any bit. -/
theorem field_split (w v : Word) (lo a b : Nat) (h1 : field w lo a = field v lo a)
    (h2 : field w (lo + a) b = field v (lo + a) b) : field w lo (a + b) = field v lo (a + b) := by
  apply BitVec.eq_of_getLsbD_eq
  intro i hi
  by_cases h : i < a
  · have := congrArg (fun x => x.getLsbD i) h1
    simpa [field, h, hi] using this
  · have := congrArg (fun x => x.getLsbD (i - a)) h2
    have e : lo + a + (i - a) = lo + i := by omega
    have l : i - a < b := by omega
    simpa [field, l, e, hi] using this

/-- The check of a reserved field says that its bits are 0. -/
theorem reservedZero_iff (w : Word) (lo n : Nat) : reservedZero w lo n = true ↔ field w lo n = 0 := by
  simp [reservedZero]

/-! ### The words as numbers (30_encoding.md R80, third column) -/

theorem formatI24_eq (op : BitVec 4) (v : Nat) (h : v ≤ 16777215) :
    formatI24 op v = BitVec.ofNat 32 (op.toNat * 2 ^ 28 + v) := by
  apply BitVec.eq_of_toNat_eq
  have := op.isLt
  unfold formatI24
  simp only [BitVec.toNat_append, BitVec.toNat_ofNat]
  rw [← Nat.shiftLeft_add_eq_or_of_lt (by omega), ← Nat.shiftLeft_add_eq_or_of_lt (by simp)]
  simp [Nat.shiftLeft_eq]; omega

theorem formatB_eq (op : BitVec 4) (v : Nat) (h : v ≤ 255) :
    formatB op v = BitVec.ofNat 32 (op.toNat * 2 ^ 28 + v) := by
  apply BitVec.eq_of_toNat_eq
  have := op.isLt
  unfold formatB
  simp only [BitVec.toNat_append, BitVec.toNat_ofNat]
  rw [← Nat.shiftLeft_add_eq_or_of_lt (by omega), ← Nat.shiftLeft_add_eq_or_of_lt (by simp)]
  simp [Nat.shiftLeft_eq]; omega

theorem formatC_eq (op : BitVec 4) (c : Nat) (h : c ≤ 15) :
    formatC op c = BitVec.ofNat 32 (op.toNat * 2 ^ 28 + c * 2 ^ 24) := by
  apply BitVec.eq_of_toNat_eq
  have := op.isLt
  unfold formatC
  simp only [BitVec.toNat_append, BitVec.toNat_ofNat]
  rw [← Nat.shiftLeft_add_eq_or_of_lt (by simp), ← Nat.shiftLeft_add_eq_or_of_lt (by omega)]
  simp [Nat.shiftLeft_eq]; omega

theorem formatCB_eq (op : BitVec 4) (c v : Nat) (h : c ≤ 15) (hv : v ≤ 255) :
    formatCB op c v = BitVec.ofNat 32 (op.toNat * 2 ^ 28 + c * 2 ^ 24 + v) := by
  apply BitVec.eq_of_toNat_eq
  have := op.isLt
  unfold formatCB
  simp only [BitVec.toNat_append, BitVec.toNat_ofNat]
  rw [← Nat.shiftLeft_add_eq_or_of_lt (by omega), ← Nat.shiftLeft_add_eq_or_of_lt (by simp),
    ← Nat.shiftLeft_add_eq_or_of_lt (by omega)]
  simp [Nat.shiftLeft_eq]; omega

theorem formatCD_eq (op : BitVec 4) (c : Nat) (d : Int) (h : c ≤ 15) :
    formatCD op c d = BitVec.ofNat 32 (op.toNat * 2 ^ 28 + c * 2 ^ 24 + (d % 65536).toNat) := by
  apply BitVec.eq_of_toNat_eq
  have := op.isLt
  unfold formatCD
  simp only [BitVec.toNat_append, BitVec.toNat_ofNat, BitVec.toNat_ofInt]
  rw [← Nat.shiftLeft_add_eq_or_of_lt (by omega), ← Nat.shiftLeft_add_eq_or_of_lt (by simp),
    ← Nat.shiftLeft_add_eq_or_of_lt (by omega)]
  simp [Nat.shiftLeft_eq]; omega

/-- Two words with equal opcodes, equal bits `w[27:lo]` and equal bits `w[lo-1:0]` are equal. -/
theorem word_ext_op (w v : Word) (lo : Nat) (hlo : lo ≤ 28) (h0 : opField w = opField v)
    (h1 : field w lo (28 - lo) = field v lo (28 - lo)) (h2 : field w 0 lo = field v 0 lo) : w = v := by
  apply word_ext w v lo (by omega) _ h2
  rw [show 32 - lo = 28 - lo + 4 by omega]
  apply field_split _ _ _ _ _ h1
  rw [show lo + (28 - lo) = 28 by omega]
  exact BitVec.eq_of_toNat_eq h0

/-! ### The decoder, opcode by opcode -/

theorem decode_op0 {w : Word} (h : opField w = 0x0) :
    decode w = if reservedZero w 0 28 then some .nop else none := by simp [decode, h]

theorem decode_op1 {w : Word} (h : opField w = 0x1) :
    decode w = if reservedZero w 24 4 then some (.setsrc (imm24Field w)) else none := by simp [decode, h]

theorem decode_op2 {w : Word} (h : opField w = 0x2) :
    decode w = if reservedZero w 24 4 then some (.setdst (imm24Field w)) else none := by simp [decode, h]

theorem decode_op3 {w : Word} (h : opField w = 0x3) :
    decode w = if reservedZero w 24 4 then some (.setlen (imm24Field w)) else none := by simp [decode, h]

theorem decode_op4 {w : Word} (h : opField w = 0x4) :
    decode w = if reservedZero w 24 4 then some (.setcap (imm24Field w)) else none := by simp [decode, h]

theorem decode_op5 {w : Word} (h : opField w = 0x5) :
    decode w = if reservedZero w 8 20 then some (.crcl (imm8Field w)) else none := by simp [decode, h]

theorem decode_op6 {w : Word} (h : opField w = 0x6) :
    decode w = if reservedZero w 16 8 then some (.dinite (chField w) (simm16Field w)) else none := by
  simp [decode, h]

theorem decode_op7 {w : Word} (h : opField w = 0x7) :
    decode w = if reservedZero w 16 8 then some (.dinitd (chField w) (simm16Field w)) else none := by
  simp [decode, h]

theorem decode_op8 {w : Word} (h : opField w = 0x8) :
    decode w = if reservedZero w 0 24 then some (.drel (chField w)) else none := by simp [decode, h]

theorem decode_op9 {w : Word} (h : opField w = 0x9) :
    decode w = if reservedZero w 8 16 then some (.dencb (chField w) (imm8Field w)) else none := by
  simp [decode, h]

theorem decode_opA {w : Word} (h : opField w = 0xA) :
    decode w = if reservedZero w 0 24 then some (.denc (chField w)) else none := by simp [decode, h]

theorem decode_opB {w : Word} (h : opField w = 0xB) :
    decode w = if reservedZero w 8 16 then some (.ddecb (chField w) (imm8Field w)) else none := by
  simp [decode, h]

theorem decode_opC {w : Word} (h : opField w = 0xC) :
    decode w = if reservedZero w 0 24 then some (.ddec (chField w)) else none := by simp [decode, h]

/-- Opcodes 0xD, 0xE and 0xF decode to nothing (R76). -/
theorem decode_reserved {w : Word} (h : 0xD ≤ opField w) : decode w = none := by
  have hlt : opField w < 16 := (field w 28 4).isLt
  have : opField w = 0xD ∨ opField w = 0xE ∨ opField w = 0xF := by omega
  rcases this with h | h | h <;> simp [decode, h]

/-! ### Bits under a mask -/

/-- A mask of the `n` bits from bit `lo` up leaves nothing exactly when that field is 0. -/
theorem and_mask_eq_zero (w : Word) (lo n : Nat) (h : lo + n ≤ 32) :
    w &&& (BitVec.allOnes n).setWidth 32 <<< lo = 0 ↔ field w lo n = 0 := by
  constructor
  · intro hw
    apply BitVec.eq_of_getLsbD_eq
    intro i hi
    have := congrArg (fun x => x.getLsbD (lo + i)) hw
    have l : lo + i < 32 := by omega
    simpa [field, hi, l] using this
  · intro hw
    apply BitVec.eq_of_getLsbD_eq
    intro i hi
    by_cases h1 : i < lo
    · simp [h1]
    · have := congrArg (fun x => x.getLsbD (i - lo)) hw
      have e : lo + (i - lo) = i := by omega
      by_cases h2 : i - lo < n
      · simp [field, h2, e] at this
        simp [this]
      · simp [h1, h2]

/-- The `n` bits from bit `lo` up are `k` exactly when the word under their mask is `k` at that place. -/
theorem and_mask_eq (w : Word) (lo n : Nat) (h : lo + n ≤ 32) (k : BitVec n) :
    w &&& (BitVec.allOnes n).setWidth 32 <<< lo = k.setWidth 32 <<< lo ↔ field w lo n = k := by
  constructor
  · intro hw
    apply BitVec.eq_of_getLsbD_eq
    intro i hi
    have := congrArg (fun x => x.getLsbD (lo + i)) hw
    have l : lo + i < 32 := by omega
    have l' : i < 32 := by omega
    simpa [field, hi, l, l'] using this
  · rintro rfl
    apply BitVec.eq_of_getLsbD_eq
    intro i hi
    by_cases h1 : i < lo
    · simp [h1]
    · have e : lo + (i - lo) = i := by omega
      by_cases h2 : i - lo < n
      · simp [field, h1, h2, e, hi]
      · simp [field, h1, h2]

/-- The mask of the opcode field (R71). -/
theorem opcode_mask : (0xF0000000 : Word) = (BitVec.allOnes 4).setWidth 32 <<< 28 := by decide

/-- A comparison under two disjoint masks is the two comparisons. -/
theorem and_or_mask (w a b p : Word) (h1 : a &&& b = 0) (h2 : p &&& b = 0) (h3 : p &&& a = p) :
    w &&& (a ||| b) = p ↔ w &&& a = p ∧ w &&& b = 0 := by
  constructor
  · intro h
    refine ⟨?_, ?_⟩
    · rw [← h3, ← h]
      ext i hi
      have := congrArg (fun x => x.getLsbD i) h1
      simp at this ⊢
      by_cases x : a[i] <;> simp_all
    · rw [← h2, ← h]
      ext i hi
      simp
      by_cases x : b[i] <;> simp_all
  · rintro ⟨h, h'⟩
    rw [BitVec.and_or_distrib_left, h, h']
    simp

theorem opField_iff (w : Word) (k : Nat) (hk : k < 16) : opField w = k ↔ field w 28 4 = BitVec.ofNat 4 k := by
  unfold opField
  constructor
  · intro h; apply BitVec.eq_of_toNat_eq; rw [h]; simp; omega
  · intro h; rw [h]; simp; omega

/-- One row of R74: its mask and pattern say its opcode and that its reserved field is 0. -/
theorem row_iff (w : Word) (p m : Word) (k lo n : Nat) (hk : k < 16) (hl : lo + n ≤ 28)
    (hm : m = 0xF0000000 ||| (BitVec.allOnes n).setWidth 32 <<< lo)
    (hp : p = (BitVec.ofNat 4 k).setWidth 32 <<< 28)
    (h1 : (0xF0000000 : Word) &&& (BitVec.allOnes n).setWidth 32 <<< lo = 0)
    (h2 : p &&& (BitVec.allOnes n).setWidth 32 <<< lo = 0) (h3 : p &&& 0xF0000000 = p) :
    w &&& m = p ↔ opField w = k ∧ reservedZero w lo n = true := by
  subst hm hp
  rw [and_or_mask _ _ _ _ h1 h2 h3, and_mask_eq_zero _ _ _ (by omega), opcode_mask,
    and_mask_eq _ _ _ (by omega), opField_iff _ _ hk, reservedZero_iff]

end Sys2Proof
end

