-- ==== Sys2Proof/Laws/PerInstr.lean ====
section
/-! SUPPORT. What holds of every command as syntax, one lemma a constructor. Family OpcodeField: the word
of a command carries, in bits 31:28, the opcode of its row of 30_encoding.md R74. -/

namespace Sys2Proof.Laws.OpcodeField

/-- The opcode column of R74. -/
def opcode : Instr → Nat
  | .nop => 0x0
  | .setsrc _ => 0x1
  | .setdst _ => 0x2
  | .setlen _ => 0x3
  | .setcap _ => 0x4
  | .crcl _ => 0x5
  | .dinite _ _ => 0x6
  | .dinitd _ _ => 0x7
  | .drel _ => 0x8
  | .dencb _ _ => 0x9
  | .denc _ => 0xA
  | .ddecb _ _ => 0xB
  | .ddec _ => 0xC

/-- The command's word has its row's opcode. -/
def Statement (i : Instr) : Prop := opField (encode i) = opcode i

theorem nop : Statement .nop := congrArg BitVec.toNat (field_formatN _).1
theorem setsrc (v : Nat) : Statement (.setsrc v) := congrArg BitVec.toNat (field_formatI24 _ v).1
theorem setdst (v : Nat) : Statement (.setdst v) := congrArg BitVec.toNat (field_formatI24 _ v).1
theorem setlen (v : Nat) : Statement (.setlen v) := congrArg BitVec.toNat (field_formatI24 _ v).1
theorem setcap (v : Nat) : Statement (.setcap v) := congrArg BitVec.toNat (field_formatI24 _ v).1
theorem crcl (v : Nat) : Statement (.crcl v) := congrArg BitVec.toNat (field_formatB _ v).1
theorem dinite (c : Nat) (d : Int) : Statement (.dinite c d) := congrArg BitVec.toNat (field_formatCD _ c d).1
theorem dinitd (c : Nat) (d : Int) : Statement (.dinitd c d) := congrArg BitVec.toNat (field_formatCD _ c d).1
theorem drel (c : Nat) : Statement (.drel c) := congrArg BitVec.toNat (field_formatC _ c).1
theorem dencb (c x : Nat) : Statement (.dencb c x) := congrArg BitVec.toNat (field_formatCB _ c x).1
theorem denc (c : Nat) : Statement (.denc c) := congrArg BitVec.toNat (field_formatC _ c).1
theorem ddecb (c y : Nat) : Statement (.ddecb c y) := congrArg BitVec.toNat (field_formatCB _ c y).1
theorem ddec (c : Nat) : Statement (.ddec c) := congrArg BitVec.toNat (field_formatC _ c).1

end Sys2Proof.Laws.OpcodeField
end

