-- ==== Sys2Proof/Laws/Step.lean ====
section
/-! SUPPORT. Everything one step can do. -/

namespace Sys2Proof.Machine

/-- A step with nothing left to do changes nothing. -/
theorem step_idle {s : State} (h : s.port = []) : step s = .next s := by simp [step, State.takeAction, h]

/-- A step is the next action's effect on the state with the action taken off the list. -/
theorem step_action {s : State} {a : HostAction} {rest : List HostAction} (h : s.port = a :: rest) :
    step s = act a { s with port := rest } := by simp [step, State.takeAction, h]

/-- Everything a step that answers a next state can be. -/
theorem step_cases {s t : State} (h : step s = .next t) :
    (s.port = [] ∧ t = s) ∨
    ∃ a rest, s.port = a :: rest ∧
      ((∃ w i, a = .command w ∧ decode w = some i ∧ exec i { s with port := rest } = .next t) ∨
       (∃ w, a = .command w ∧ decode w = none ∧ t = raiseError .illegalCommand { s with port := rest }) ∨
       (∃ n, a = .readReg n ∧ t = { s with port := rest }) ∨
       (∃ x, a = .readMem x ∧ t = { s with port := rest }) ∨
       (∃ x b, a = .writeMem x b ∧ t = State.writeMem { s with port := rest } x b) ∨
       (a = .reset ∧ t = State.hostReset { s with port := rest })) := by
  cases hp : s.port with
  | nil => rw [step_idle hp] at h; simp_all
  | cons a rest =>
    rw [step_action hp] at h
    refine .inr ⟨a, rest, rfl, ?_⟩
    cases a with
    | command w =>
      simp only [act, runWord] at h
      cases hd : decode w with
      | none => rw [hd] at h; simp_all [execIllegal, finish, eq_comm]
      | some i => rw [hd] at h; simp_all
    | _ => simp_all [act, eq_comm]

/-! ### The run's list of command words -/

/-- Every step answers a next state. -/
theorem step_next (s : State) : ∃ t, step s = .next t := by
  cases hp : s.port with
  | nil => exact ⟨s, step_idle hp⟩
  | cons a rest =>
    rw [step_action hp]
    cases a with
    | command w =>
      simp only [act, runWord]
      cases decode w with
      | none => exact ⟨_, rfl⟩
      | some i => dsimp only; rw [exec_eq_finish]; cases body i _ <;> exact ⟨_, rfl⟩
    | _ => exact ⟨_, rfl⟩

/-- What a command leaves of cmdidx, the host's list and STICKY. -/
theorem exec_counts {i : Instr} {s t : State} (h : exec i s = .next t) :
    t.cmdidx = s.cmdidx + 1 ∧ t.port = s.port ∧
    (t.status.sticky = true ↔ s.status.sticky = true ∨ t.status.last ≠ 0) := by
  rcases exec_cases.mp h with ⟨u, he, rfl⟩ | ⟨e, -, rfl⟩
  · obtain ⟨hs, hc, hp, -⟩ := effect_frame he
    refine ⟨by simp [succeed, hc], by simp [succeed, hp], ?_⟩
    simp [succeed, Status.succeeded, hs]
  · exact ⟨rfl, rfl, by simpa [raiseError, Status.failed] using .inr (code_ne_zero e)⟩

/-- What a step on a command word leaves of cmdidx, the host's list and STICKY. -/
theorem step_command_counts {s t : State} {w : Word} {rest : List HostAction}
    (hp : s.port = .command w :: rest) (h : step s = .next t) :
    t.cmdidx = s.cmdidx + 1 ∧ t.port = rest ∧
    (t.status.sticky = true ↔ s.status.sticky = true ∨ t.status.last ≠ 0) := by
  rw [step_action hp] at h
  simp only [act, runWord] at h
  cases hd : decode w with
  | none =>
    rw [hd] at h; cases h
    exact ⟨rfl, rfl, by simp [raiseError, Status.failed, ErrorCode.code]⟩
  | some i => rw [hd] at h; exact exec_counts h

/-- What a host access (no command, no reset) leaves of cmdidx, the host's list and STATUS. -/
theorem step_access_counts {s t : State} {a : HostAction} {rest : List HostAction}
    (hp : s.port = a :: rest) (hc : ∀ w, a ≠ .command w) (hr : a ≠ .reset) (h : step s = .next t) :
    t.cmdidx = s.cmdidx ∧ t.port = rest ∧ t.status = s.status ∧
    commandsLeft s.port = commandsLeft rest := by
  rw [step_action hp] at h
  cases a with
  | command w => exact absurd rfl (hc w)
  | reset => exact absurd rfl hr
  | writeMem x b =>
    cases h
    rw [writeMem_eq]
    exact ⟨rfl, rfl, rfl, by rw [hp]; rfl⟩
  | _ => cases h; exact ⟨rfl, rfl, rfl, by rw [hp]; rfl⟩

/-- A run has ended exactly when no command word of it is left. -/
theorem runEnded_iff {s : State} : s.runEnded ↔ commandsLeft s.port = 0 := by
  simp only [State.runEnded, State.runLength]; omega

end Sys2Proof.Machine
end

