-- ==== Sys2Proof/Laws/Stream.lean ====
section
/-! SUPPORT. A stream of byte steps of one channel, and what its history holds along it (10_state.md
R31). -/

namespace Sys2Proof.Machine

/-- The byte steps of a list of bytes, one after another: the channel after them and the bytes given. -/
def stream (f : Channel → Byte → Channel × Byte) : Channel → List Byte → Channel × List Byte
  | c, [] => (c, [])
  | c, x :: xs => ((stream f (f c x).1 xs).1, (f c x).2 :: (stream f (f c x).1 xs).2)

/-- A stream may be split anywhere. -/
theorem stream_append (f : Channel → Byte → Channel × Byte) (c : Channel) (a b : List Byte) :
    stream f c (a ++ b) =
      ((stream f (stream f c a).1 b).1, (stream f c a).2 ++ (stream f (stream f c a).1 b).2) := by
  induction a generalizing c with
  | nil => rfl
  | cons x a ih => simp [stream, ih]

/-- A sequence of channels each one byte step from the last is a stream. -/
theorem stream_of_steps (f : Channel → Byte → Channel × Byte) (g : Nat → Channel) (xs ys : Nat → Byte)
    (n : Nat) (h : ∀ i < n, f (g i) (xs i) = (g (i + 1), ys i)) :
    stream f (g 0) ((List.range n).map xs) = (g n, (List.range n).map ys) := by
  induction n with
  | zero => rfl
  | succ n ih =>
    rw [List.range_succ, List.map_append, stream_append, ih (fun i hi => h i (by omega))]
    simp [stream, h n (by omega)]

/-- What a channel with distance `d` holds after the original bytes `xs`, the latest last: the byte `j + 1`
steps back is in the slot `j + 1` above POS, 0 before the stream's start. -/
def Holds (h : Channel) (d : Nat) (xs : List Byte) : Prop :=
  h.dist = BitVec.ofNat 9 d ∧ h.pos = BitVec.ofInt 8 (-(xs.length : Int)) ∧
  ∀ j : Nat, j < 256 →
    h.slot (h.pos + 1 + BitVec.ofNat 8 j) = if j < xs.length then xs.getD (xs.length - 1 - j) 0 else 0

/-- A fresh channel holds the empty stream. -/
theorem holds_fresh (dir : Dir) (d : Nat) :
    Holds ⟨true, dir, BitVec.ofNat 9 d, 0, Vector.replicate Config.histSize 0⟩ d [] :=
  ⟨rfl, rfl, fun j _ => by simp [Channel.slot]⟩

/-- The lookback byte is the byte `d` steps back. -/
theorem lookback_of_holds {h : Channel} {d : Nat} {xs : List Byte} (H : Holds h d xs) (h1 : 1 ≤ d)
    (h2 : d ≤ 256) : h.lookback = lagged xs d xs.length := by
  obtain ⟨a, b, c⟩ := H
  have e : (BitVec.ofNat 9 d).setWidth 8 + h.pos = h.pos + 1 + BitVec.ofNat 8 (d - 1) := by
    apply BitVec.eq_of_toNat_eq; simp [BitVec.toNat_add]; omega
  rw [lookback_eq, a, e, c (d - 1) (by omega)]
  unfold lagged
  by_cases hh : d ≤ xs.length
  · rw [if_pos (by omega), if_pos hh]; congr 1; omega
  · rw [if_neg (by omega), if_neg hh]

/-- Storing a byte appends it. -/
theorem holds_store {h : Channel} {d : Nat} {xs : List Byte} (H : Holds h d xs) (x : Byte) :
    Holds (h.store x) d (xs ++ [x]) := by
  obtain ⟨a, b, c⟩ := H
  refine ⟨a, ?_, fun j hj => ?_⟩
  · rw [store_pos, b]
    apply BitVec.eq_of_toNat_eq; simp; omega
  · rw [slot_store, store_pos]
    rcases Nat.eq_zero_or_pos j with rfl | hp
    · simp
    · have e : h.pos - 1 + 1 + BitVec.ofNat 8 j = h.pos + 1 + BitVec.ofNat 8 (j - 1) := by
        apply BitVec.eq_of_toNat_eq; simp [BitVec.toNat_add]; omega
      have ne : h.pos - 1 + 1 + BitVec.ofNat 8 j ≠ h.pos := by
        intro h'
        have := congrArg BitVec.toNat h'
        have := h.pos.isLt
        simp [BitVec.toNat_add] at *; omega
      rw [if_neg ne, e, c _ (by omega)]
      simp only [List.length_append, List.length_singleton]
      by_cases hh : j - 1 < xs.length
      · rw [if_pos hh, if_pos (by omega)]
        simp only [List.getD_eq_getElem?_getD]
        rw [List.getElem?_append_left (by omega)]; congr 2; omega
      · rw [if_neg hh, if_neg (by omega)]

/-- R31's account of a channel with distance DIST is the same as the account by steps back. -/
theorem holds_of_historyIs {h : Channel} {xs : List Byte} (H : h.historyIs xs) :
    Holds h h.dist.toNat xs := by
  obtain ⟨b, c⟩ := H
  refine ⟨by simp, b, fun j hj => ?_⟩
  have e : ∀ k : Nat, BitVec.ofInt 8 (-(k : Int)) = h.pos + 1 + BitVec.ofNat 8 j ↔
      (k + 1 + j) % 256 = xs.length % 256 := by
    intro k; rw [b, ← BitVec.toNat_inj]; simp [BitVec.toNat_add]; omega
  split
  · next hlt =>
    exact (c _).1 (xs.length - 1 - j) (by omega) ((e _).mpr (by congr 1; omega))
      (fun k' _ _ hk => by have := (e k').mp hk; omega)
  · next hge => exact (c _).2 (fun k _ hk => by have := (e k).mp hk; omega)

/-- The account by steps back gives R31's. -/
theorem historyIs_of_holds {h : Channel} {d : Nat} {xs : List Byte} (H : Holds h d xs) :
    h.historyIs xs := by
  obtain ⟨-, b, c⟩ := H
  have e : ∀ k : Nat, k < xs.length →
      BitVec.ofInt 8 (-(k : Int)) = h.pos + 1 + BitVec.ofNat 8 (xs.length - 1 - k) := by
    intro k hk; rw [b]; apply BitVec.eq_of_toNat_eq; simp [BitVec.toNat_add]; omega
  refine ⟨b, fun j => ⟨fun k hk hj hmax => ?_, fun hno => ?_⟩⟩
  · have hn : xs.length - 1 - k < 256 := by
      by_contra hge
      apply hmax (k + 256) (by omega) (by omega)
      rw [← hj]; apply BitVec.eq_of_toNat_eq; simp
    rw [← hj, e k hk, c _ hn, if_pos (by omega)]; congr 1; omega
  · have hj : j = h.pos + 1 + BitVec.ofNat 8 ((j - (h.pos + 1)).toNat) := by
      rw [BitVec.ofNat_toNat, BitVec.setWidth_eq]; apply BitVec.eq_of_toNat_eq; simp
    generalize (j - (h.pos + 1)).toNat = n at hj
    have hn := c (n % 256) (Nat.mod_lt _ (by decide))
    have hm : BitVec.ofNat 8 (n % 256) = BitVec.ofNat 8 n := by
      apply BitVec.eq_of_toNat_eq; simp
    rw [hm, ← hj] at hn
    rw [hn, if_neg]
    intro hlt
    apply hno (xs.length - 1 - n % 256) (by omega)
    rw [e _ (by omega), show xs.length - 1 - (xs.length - 1 - n % 256) = n % 256 by omega, hm, ← hj]

/-- A channel that holds zeros, with POS 0, holds the empty stream. -/
theorem historyIs_nil {h : Channel} (hp : h.pos = 0) (hs : ∀ j, h.slot j = 0) : h.historyIs [] :=
  ⟨by simp [hp], fun j => ⟨fun k hk => absurd hk (Nat.not_lt_zero k), fun _ => hs j⟩⟩

/-- A byte step appends its original byte. -/
theorem historyIs_store {h : Channel} {xs : List Byte} (H : h.historyIs xs) (x : Byte) :
    (h.store x).historyIs (xs ++ [x]) :=
  historyIs_of_holds (holds_store (holds_of_historyIs H) x)

end Sys2Proof.Machine
end

