-- ==== Sys2Proof/Tests/Slice0.lean ====
section
/-! SUPPORT. The model's own tests: well-formedness, decoding of words written out bit by bit, one-step
effects whose expected values are those of 95_test_vectors.md or a rule's own example, and, for each
obligation with hypotheses, a witness that meets them. -/

namespace Sys2Proof.Tests

open Sys2Proof.Machine

set_option Elab.async false

/-! ## Helpers -/

/-- A state with NCH = 2 and MEM_BYTES = 0x1000, the given channels, and the given DMEM bytes. -/
def mk (c₀ c₁ : Channel) (cells : List Host.Cell) : State :=
  { State.reset with channels := [c₀, c₁], dmem := ⟨0x1000, cells⟩ }

/-- The state with SRC, DST, LEN and CAP set. -/
def ops (s : State) (src dst len cap : Addr) : State :=
  { s with src := src, dst := dst, len := len, cap := cap }

/-- A fresh instance. -/
def fresh (dir : Dir) (d : BitVec 9) : Channel := ⟨true, dir, d, 0, Vector.replicate 256 0⟩

/-- A fresh instance that has held the bytes of `xs` in its history, the first in slot 0. -/
def held (dir : Dir) (d : BitVec 9) (xs : List Byte) : Channel := xs.foldl Channel.store (fresh dir d)

/-- What `f` sees of the state a step answers. -/
def see {α : Type} (f : State → α) : Host.Outcome State Fault Refusal → Option α
  | .next t => some (f t)
  | .fault _ => none
  | .refused _ => none

/-- The state a command answers. -/
def after (i : Instr) (s : State) : State := (see id (exec i s)).getD s

theorem exec_after (i : Instr) (s : State) : exec i s = .next (after i s) := by
  unfold after
  rw [exec_eq_finish]
  cases body i s <;> rfl

/-- STATUS, as the host reads it, after a command. -/
def statusAfter (i : Instr) (s : State) : Option Word := see (fun t => t.readReg 0x00) (exec i s)

/-- An encoder on channel 0 and a decoder on channel 1, both with distance 1. -/
def pair : State := mk (fresh .encoder 1) (fresh .decoder 1) [(0x10, 10), (0x11, 20), (0x12, 30)]

/-! ## Well-formedness: an ill-formed term for each check (R80) -/

theorem test_wf_imm24 : Instr.wellFormed (.setsrc 16777216) = false ∧
    Instr.wellFormed (.setdst 16777216) = false ∧ Instr.wellFormed (.setlen 16777216) = false ∧
    Instr.wellFormed (.setcap 16777216) = false := by decide
theorem test_wf_imm8 : Instr.wellFormed (.crcl 256) = false ∧ Instr.wellFormed (.dencb 0 256) = false ∧
    Instr.wellFormed (.ddecb 0 256) = false := by decide
theorem test_wf_ch : Instr.wellFormed (.dinite 16 1) = false ∧ Instr.wellFormed (.dinitd 16 1) = false ∧
    Instr.wellFormed (.drel 16) = false ∧ Instr.wellFormed (.dencb 16 0) = false ∧
    Instr.wellFormed (.denc 16) = false ∧ Instr.wellFormed (.ddecb 16 0) = false ∧
    Instr.wellFormed (.ddec 16) = false := by decide
theorem test_wf_simm16 : Instr.wellFormed (.dinite 0 32768) = false ∧
    Instr.wellFormed (.dinite 0 (-32769)) = false ∧ Instr.wellFormed (.dinitd 0 32768) = false ∧
    Instr.wellFormed (.dinitd 0 (-32769)) = false := by decide

/-! ## Decoding: a word of each row, written out from R72 and R74 -/

theorem test_decode_nop : decode 0b0000_0000_0000_0000_0000_0000_0000_0000 = some .nop := by decide
theorem test_decode_setsrc :
    decode 0b0001_0000_1000_0000_0000_0000_0000_0001 = some (.setsrc 0x800001) := by decide
theorem test_decode_setdst :
    decode 0b0010_0000_1000_0000_0000_0000_0000_0010 = some (.setdst 0x800002) := by decide
theorem test_decode_setlen :
    decode 0b0011_0000_0000_0000_0000_0001_0000_0001 = some (.setlen 257) := by decide
theorem test_decode_setcap :
    decode 0b0100_0000_0000_0000_0000_0000_0000_0011 = some (.setcap 3) := by decide
theorem test_decode_crcl : decode 0b0101_0000_0000_0000_0000_0000_1000_0001 = some (.crcl 0x81) := by decide
theorem test_decode_dinite :
    decode 0b0110_1010_0000_0000_0000_0001_0000_0000 = some (.dinite 10 256) := by decide
theorem test_decode_dinite_negative :
    decode 0b0110_0000_0000_0000_1111_1111_1111_1110 = some (.dinite 0 (-2)) := by decide
theorem test_decode_dinitd :
    decode 0b0111_0001_0000_0000_0000_0001_0000_0000 = some (.dinitd 1 256) := by decide
theorem test_decode_drel : decode 0b1000_1111_0000_0000_0000_0000_0000_0000 = some (.drel 15) := by decide
theorem test_decode_dencb :
    decode 0b1001_0110_0000_0000_0000_0000_1000_1010 = some (.dencb 6 0x8A) := by decide
theorem test_decode_denc : decode 0b1010_1001_0000_0000_0000_0000_0000_0000 = some (.denc 9) := by decide
theorem test_decode_ddecb :
    decode 0b1011_0001_0000_0000_0000_0000_0000_1010 = some (.ddecb 1 10) := by decide
theorem test_decode_ddec : decode 0b1100_0111_0000_0000_0000_0000_0000_0000 = some (.ddec 7) := by decide

/-- Words that are no command: opcode 0xD and a reserved bit of each format (R76, R77). -/
theorem test_decode_illegal : [0xD0000000, 0x08000000, 0x18000000, 0x50000100, 0x60800000, 0x80000001,
    0x90000100, 0xA0800000, 0xB0800000, 0xC0000001].map decode = List.replicate 10 none := by decide

/-- The words of programs P1 to P3, one of each format (95_test_vectors.md section 3). -/
theorem test_encode : [Instr.nop, .setsrc 0xFFE, .crcl 0x80, .dinite 0 (-1), .drel 15, .dencb 0 30,
    .ddec 1].map encode = [0x00000000, 0x10000FFE, 0x50000080, 0x6000FFFF, 0x8F000000, 0x9000001E,
    0xC1000000] := by decide

/-- decodeTableWord reads the table's numbering, and gives none where bits stand above bit 31 (log 12). -/
theorem test_decodeTableWord : decodeTableWord 32 0x71000100 = some (.dinitd 1 256) ∧
    decodeTableWord 32 0xD0000000 = none ∧ decodeTableWord 40 0x100000000 = none := by decide

/-! ## Assembler text (R80, R81) -/

theorem test_assemble_line :
    assembleLine "dinite 0, -1 ; rejected when run".toList = some [0x6000FFFF] ∧
    assembleLine "SETSRC 16777216".toList = none ∧ assembleLine "DREL 16".toList = none := by
  decide +kernel

/-- The first expansion in program P2. -/
theorem test_assemble_encode : assembleLine "ENCODE 0, 0x000, 0x100, 6".toList =
    some [0x10000000, 0x20000100, 0x30000006, 0x40000006, 0xA0000000] := by decide +kernel

/-- The raw word of program P3's listing, and one too wide (log 10). -/
theorem test_assemble_word :
    assembleLine ".word 0xD0000000 ; STATUS 0x00000101".toList = some [0xD0000000] ∧
    assembleLine ".word 0x100000000".toList = none := by decide +kernel

theorem test_assemble_decode : assembleLine "DECODE 1, 0x104, 2".toList =
    some [0x10000104, 0x30000002, 0xC1000000] := by decide +kernel

/-! ## Effects (95_test_vectors.md) -/

/-- 2.2: NOP after a failing command: 0x103 becomes 0x100. -/
theorem test_nop : statusAfter .nop { State.reset with status := ⟨3, true⟩ } = some 0x00000100 := by decide +kernel

theorem test_setsrc : see State.src (exec (.setsrc 0x100) State.reset) = some 0x000100 := by decide +kernel
theorem test_setdst : see State.dst (exec (.setdst 0xFFFFFF) State.reset) = some 0xFFFFFF := by decide +kernel
theorem test_setlen : see State.len (exec (.setlen 257) pair) = some 257 := by decide +kernel
theorem test_setcap : see State.cap (exec (.setcap 3) State.reset) = some 3 := by decide +kernel

/-- 2.3. -/
theorem test_crcl : [0x00, 0x01, 0x02, 0x03, 0x10, 0x40, 0x80, 0x81, 0xFE, 0xFF].map
      (fun v => see State.res (exec (.crcl v) State.reset)) =
    [some 0x00000000, some 0x77073096, some 0xEE0E612C, some 0x990951BA, some 0x1DB71064,
      some 0x76DC4190, some 0xEDB88320, some 0x9ABFB3B6, some 0x5A05DF1B, some 0x2D02EF8D] := by
  decide +kernel

/-- 2.4: CHCFG[0] reads 0x401. -/
theorem test_dinite :
    see (fun t => t.readReg 0x10) (exec (.dinite 0 1) State.reset) = some 0x00000401 := by decide +kernel
/-- 2.4 and 2.9: the distances and channels rejected, the channel first. -/
theorem test_dinite_errors : [(0, 0), (0, 257), (0, -1), (0, -32768), (0, 32767), (2, 1), (15, 0)].map
      (fun p : Nat × Int => statusAfter (.dinite p.1 p.2) State.reset) =
    [some 0x103, some 0x103, some 0x103, some 0x103, some 0x103, some 0x102, some 0x102] := by decide +kernel
/-- 2.4: CHCFG[1] reads 0x700. -/
theorem test_dinitd :
    see (fun t => t.readReg 0x11) (exec (.dinitd 1 256) State.reset) = some 0x00000700 := by decide +kernel
/-- 2.4: a construction replaces the instance P1 left, history and all. -/
theorem test_dinitd_replaces :
    see (fun t => t.channels.map (fun c => (c.cfgWord, c.pos, [c.slot 0, c.slot 254])))
      (exec (.dinitd 0 4) (mk (held .encoder 1 [10, 20, 30]) Channel.empty [])) =
      some [(0x604, 0, [0, 0]), (0, 0, [0, 0])] := by decide +kernel
/-- 2.4: DREL empties the channel P1 left. -/
theorem test_drel :
    see (fun t => t.channels.map (fun c => (c.cfgWord, c.pos, [c.slot 0, c.slot 254])))
      (exec (.drel 0) (mk (held .encoder 1 [10, 20, 30]) Channel.empty [])) =
      some [(0, 0, [0, 0]), (0, 0, [0, 0])] := by decide +kernel
theorem test_drel_error : statusAfter (.drel 15) State.reset = some 0x00000102 := by decide +kernel

/-- R163's example; 2.5: 0x05 - 0x10 wraps to 0xF5; and with DIST = 256 the slot is read before it is
written (R235). -/
theorem test_dencb : see (fun t => (t.res, t.channels.map (fun c => (c.pos, c.slot 0))))
      (exec (.dencb 0 10) pair) = some (0x0000000A, [(0xFF, 10), (0, 0)]) ∧
    see State.res (exec (.dencb 0 0x05) (mk (held .encoder 1 [0x10]) Channel.empty [])) = some 0xF5 ∧
    see State.res (exec (.dencb 0 0x05)
      (mk { held .encoder 256 [0x07] with pos := 0 } Channel.empty [])) = some 0xFE := by decide +kernel

/-- 2.6, first and last row: the source's example as a chunk, and a destination one above the source. -/
theorem test_denc : see (fun t => (t.dmem.bytes 0x40 3, t.channels.map Channel.pos))
      (exec (.denc 0) (ops pair 0x10 0x40 3 3)) = some ([10, 10, 10], [0xFD, 0]) ∧
    see (fun t => t.dmem.bytes 0x20 4) (exec (.denc 0) (ops (mk (fresh .encoder 1) Channel.empty
      [(0x20, 10), (0x21, 20), (0x22, 30), (0x23, 0)]) 0x20 0x21 3 3)) = some [10, 10, 0, 0xF6] := by
  decide +kernel
/-- 2.6 and 2.9: capacity before range, both ranges, and LEN = 0 in range anywhere. -/
theorem test_denc_errors : [ops pair 0xFFF 0x40 4 3, ops pair 0xFFE 0x40 3 3, ops pair 0x10 0xFFE 3 3,
      ops pair 0xFFFFFF 0xFFFFFF 0 0].map (statusAfter (.denc 0)) =
    [some 0x106, some 0x107, some 0x107, some 0x000] := by decide +kernel

/-- 2.7: 0xF5 + 0x10 wraps to 0x05. -/
theorem test_ddecb_wraps :
    see State.res (exec (.ddecb 1 0xF5) (mk Channel.empty (held .decoder 1 [0x10]) [])) = some 0x05 := by
  decide +kernel
/-- 2.5 and 2.7: the error rows. -/
theorem test_data_errors : statusAfter (.ddecb 0 0) State.reset = some 0x104 ∧
    statusAfter (.ddecb 0 0) pair = some 0x105 ∧ statusAfter (.dencb 1 5) pair = some 0x105 ∧
    statusAfter (.dencb 5 5) pair = some 0x102 := by decide +kernel

/-- 2.8: decoding in place, with CAP = 0. -/
theorem test_ddec : see (fun t => (t.dmem.bytes 0x10 3, t.channels.map Channel.pos))
    (exec (.ddec 1) (ops (mk Channel.empty (fresh .decoder 1) [(0x10, 10), (0x11, 10), (0x12, 10)])
      0x10 0 3 0)) = some ([10, 20, 30], [0, 0xFD]) := by decide +kernel
/-- 2.8, last row. -/
theorem test_ddec_error : statusAfter (.ddec 1) (ops pair 0xFFF 0 2 0) = some 0x107 := by decide +kernel

/-! ## The step and the host -/

/-- 2.9, last row: decode before channel; the step runs the word delivered right after reset. -/
theorem test_step_illegal : see (fun t => (t.readReg 0x00, t.cmdidx, t.port))
    (step (State.reset.withFetchWord 32 0x9F000100)) = some (0x00000101, 1, []) := by decide +kernel

theorem test_step_command : see (fun t => (t.readReg 0x10, t.readReg 0x00))
    (step (State.reset.withFetchWord 32 0x60000001)) = some (0x00000401, 0) := by decide +kernel

/-- R35: PARAM with NCH = 2 and MEM_BYTES = 0x1000. -/
theorem test_param : State.reset.readReg 0x06 = 0x000FFF02 := by decide +kernel

/-- R59: a host write, then a read, at the last byte; nothing beyond it. -/
theorem test_host_memory : (State.reset.writeMem 0xFFF 7).readMem 0xFFF = 7 ∧
    (State.reset.writeMem 0x1000 7).dmem = State.reset.dmem ∧ State.reset.readMem 0x1000 = 0 := by decide +kernel

/-- R230: a host reset clears the block and keeps DMEM. -/
theorem test_host_reset : see (fun t => (t.channels.map Channel.cfgWord, t.dmem, t.cmdidx))
    (step { pair with port := [.reset], cmdidx := 5 }) = some ([0, 0], pair.dmem, 0) := by decide +kernel

/-! ## Witnesses: a state and operands that meet each obligation's hypotheses -/

/-- A state whose next action is `a`. -/
def next (a : HostAction) : State := { pair with port := [a] }

theorem witness_DecodeOfEncodeGivesInstr : [Instr.nop, .setsrc 0, .setdst 16777215, .setlen 16777215,
    .setcap 16777215, .crcl 255, .dinite 15 (-32768), .dinitd 15 32767, .drel 15, .dencb 15 255, .denc 15,
    .ddecb 15 255, .ddec 15].all Instr.wellFormed = true := by decide +kernel

theorem witness_DecodedWordReencodes : decode 0x6F008000 = some (.dinite 15 (-32768)) ∧
    decode 0x10FFFFFF = some (.setsrc 0xFFFFFF) := by decide +kernel

theorem witness_DecodeFollowsOpcodeMap : (∃ r ∈ opcodeMap, r.selects 0x6F008000) ∧
    (∀ r ∈ opcodeMap, ¬ r.selects 0xD0000000) ∧
    (next (.command 0xD0000000)).port = .command 0xD0000000 :: [] := by
  unfold OpcodeRow.selects; decide +kernel

theorem witness_ReservedOpcodesAreIllegal :
    (0xD0000000#32).extractLsb' 28 4 = 0xD#4 ∧ (0xE1234567#32).extractLsb' 28 4 = 0xE#4 ∧
    (0xFFFFFFFF#32).extractLsb' 28 4 = 0xF#4 ∧
    (next (.command 0xFFFFFFFF)).port = .command 0xFFFFFFFF :: [] := by decide +kernel

/-- One reserved bit of each opcode 0x0..0xC, the lowest or the highest of its format. -/
theorem witness_ReservedFieldBitsAreIllegal : ([0x00000001, 0x18000000, 0x21000000, 0x38000000,
    0x41000000, 0x58000000, 0x60010000, 0x70800000, 0x80000001, 0x90000100, 0xA0800000, 0xB0800000,
    0xC0000001].all fun w : Word => match reservedMasks[(w.extractLsb' 28 4).toNat]? with
      | some m => w &&& m != 0
      | none => false) = true ∧
    (next (.command 1)).port = .command 1 :: [] := by decide +kernel

theorem witness_StepRunsDecodedCommand : (next (.command 0x9000000A)).port = .command 0x9000000A :: [] ∧
    decode 0x9000000A = some (.dencb 0 10) := by decide +kernel

theorem witness_IdleStepHoldsState : pair.port = [] := by decide +kernel

theorem witness_HostMemoryAccess : (next (.readMem 0xFFF)).port = .readMem 0xFFF :: [] ∧
    (0xFFF#24).toNat < pair.dmem.size ∧ pair.dmem.size ≤ (0x1000#24).toNat ∧
    (next (.writeMem 0xFFF 7)).port = .writeMem 0xFFF 7 :: [] := by decide +kernel

theorem witness_HostRegisterReads : 1 ≤ pair.nch ∧ pair.nch ≤ 16 ∧ 1 ≤ pair.dmem.size ∧
    pair.dmem.size ≤ 2 ^ 24 ∧ pair.channels[0]? = some (fresh .encoder 1) ∧ (0x10#8).toNat = 0x10 + 0 ∧
    pair.channels[1]? = some (fresh .decoder 1) ∧ (0x11#8).toNat = 0x10 + 1 ∧
    0x07 ≤ (0x0F#8).toNat ∧ (0x0F#8).toNat < 0x10 ∧ 0x10 + pair.nch ≤ (0x12#8).toNat ∧
    (next (.readReg 0x06)).port = .readReg 0x06 :: [] ∧ (∀ w, HostAction.readReg 0x06 ≠ .command w) ∧
    HostAction.readReg 0x06 ≠ .reset ∧ ∃ t, step (next (.readReg 0x06)) = .next t := by
  refine ⟨by decide, by decide, by decide, by decide, rfl, by decide, rfl, by decide, by decide, by decide,
    by decide, rfl, by simp, by simp, ⟨_, rfl⟩⟩

theorem witness_ResetSetsEveryElement : (next .reset).port = .reset :: [] := by decide +kernel
theorem witness_ResetModelChoices : (next .reset).port = .reset :: [] := by decide +kernel

theorem witness_NopReportsSuccess : (1#32 ≠ 0 ∧ (1#32).toNat ≤ 0x0FFFFFFF) ∧
    (0x0FFFFFFF#32 ≠ 0 ∧ (0x0FFFFFFF#32).toNat ≤ 0x0FFFFFFF) ∧ (Status.mk 3 true).word = 0x00000103 ∧
    ∃ t, exec .nop { pair with status := ⟨3, true⟩ } = .next t := by
  exact ⟨by decide +kernel, by decide +kernel, by decide +kernel, _, rfl⟩

/-- The hypotheses of the four SET statements: both ends of imm24, and a reserved bit in each row. -/
theorem witness_SetStatements : (0 : Nat) ≤ 16777215 ∧ (16777215 : Nat) ≤ 16777215 ∧
    ([(0x11000000, 0x10000000), (0x28000000, 0x20000000), (0x31000000, 0x30000000),
      (0x48000000, 0x40000000)].all fun p : Word × Word =>
        p.1 &&& 0xF0000000 == p.2 && p.1 &&& 0x0F000000 != 0) = true := by decide +kernel

/-- The clauses of SETDST, SETLEN and SETCAP on DENC and DDEC: LEN = 0 on an encoder and on a decoder,
CAP one below LEN, and a DDEC and a DENC that answer. -/
theorem witness_SetStatements_data : pair.len = 0 ∧
    (pair.channels[0]? = some (fresh .encoder 1) ∧ (fresh .encoder 1).valid = true ∧
      (fresh .encoder 1).dir = .encoder) ∧
    (pair.channels[1]? = some (fresh .decoder 1) ∧ (fresh .decoder 1).valid = true ∧
      (fresh .decoder 1).dir = .decoder) ∧
    (ops pair 0x10 0x40 4 3).cap.toNat < (ops pair 0x10 0x40 4 3).len.toNat ∧
    (∃ t, exec (.ddec 1) (ops pair 0x10 0x40 3 3) = .next t) ∧
    (∃ t, exec (.denc 0) (ops pair 0x10 0x40 3 100) = .next t) ∧ (0x3F : Nat) < (0x40#24).toNat :=
  ⟨rfl, ⟨rfl, rfl, rfl⟩, ⟨rfl, rfl, rfl⟩, by decide, ⟨_, exec_after _ _⟩, ⟨_, exec_after _ _⟩, by decide⟩

/-- Both ends of imm24, and an expansion of each kind that answers a next state. -/
theorem witness_PseudoInstructionsExpand : imm24Ok 0 = true ∧ imm24Ok 16777215 = true ∧
    (∃ t, execAll (Pseudo.encodec 0 0 16777215 0 16777215).expand pair = .next t) ∧
    (∃ t, execAll (Pseudo.encode 0 0x10 0x40 3).expand pair = .next t) ∧
    ∃ t, execAll (Pseudo.decode 1 16777215 0).expand pair = .next t :=
  ⟨by decide, by decide, ⟨_, rfl⟩, ⟨_, rfl⟩, ⟨_, rfl⟩⟩

theorem witness_CrclReadsTable : (255 : Nat) ≤ 255 ∧ 0x50000100#32 &&& 0xF0000000 = 0x50000000 ∧
    0x50000100#32 &&& 0x0FFFFF00 ≠ 0 ∧ ∃ t, exec (.crcl 0x01) pair = .next t :=
  ⟨by decide +kernel, by decide +kernel, by decide +kernel, _, rfl⟩

theorem witness_CrcTableProperties : crcLookup 0x80 = crcLookup (0x81 ^^^ 0x01) := by decide +kernel

/-- DINITE and DINITD: the ends of ch and simm16, a reserved bit of each, the first channel beyond NCH,
the distances just outside and just inside 1..256. -/
theorem witness_ConstructionStatements : (15 : Nat) ≤ 15 ∧ (-32768 : Int) ≤ -32768 ∧ (32767 : Int) ≤ 32767 ∧
    (0x60010100#32 &&& 0xF0000000 = 0x60000000 ∧ 0x60010100#32 &&& 0x00FF0000 ≠ 0) ∧
    (0x70800001#32 &&& 0xF0000000 = 0x70000000 ∧ 0x70800001#32 &&& 0x00FF0000 ≠ 0) ∧
    pair.nch ≤ 2 ∧ 1 < pair.nch ∧ (0 : Int) ≤ 0 ∧ (257 : Int) > 256 ∧ (1 : Nat) ≤ 256 ∧
    (256 : Nat) ≤ 256 := by decide +kernel

theorem witness_ConstructionReplacesOrKeeps :
    (∃ t, exec (.dinite 0 256) pair = .next t ∧ t.status.last = 0) ∧
    (∃ t, exec (.dinitd 0 257) pair = .next t ∧ t.status.last ≠ 0) :=
  ⟨⟨_, exec_after _ _, by decide +kernel⟩, ⟨_, exec_after _ _, by decide +kernel⟩⟩

theorem witness_DrelClearsChannel : (15 : Nat) ≤ 15 ∧ 0x80000001#32 &&& 0xF0000000 = 0x80000000 ∧
    0x80000001#32 &&& 0x00FFFFFF ≠ 0 ∧ pair.nch ≤ 2 ∧ 1 < pair.nch ∧
    dataDir (.ddec 1) = some (1, .decoder) := by decide +kernel

theorem witness_ChannelsAreIndependent : namedChannel (.dencb 0 10) ≠ some 1 ∧
    ∃ t, exec (.dencb 0 10) pair = .next t := ⟨by decide +kernel, _, rfl⟩

theorem witness_EncoderByteStep : (fresh .encoder 256).dist.toNat = 256 := by decide +kernel

theorem witness_DencbEncodesByte : (15 : Nat) ≤ 15 ∧ (255 : Nat) ≤ 255 ∧
    (0x90000100#32 &&& 0xF0000000 = 0x90000000 ∧ 0x90000100#32 &&& 0x00FFFF00 ≠ 0) ∧ pair.nch ≤ 2 ∧
    (State.reset.channels[0]? = some Channel.empty ∧ Channel.empty.valid = false) ∧
    (pair.channels[1]? = some (fresh .decoder 1) ∧ (fresh .decoder 1).valid = true ∧
      (fresh .decoder 1).dir ≠ .encoder) ∧
    (pair.channels[0]? = some (fresh .encoder 1) ∧ (fresh .encoder 1).dir = .encoder) ∧
    (held .encoder 1 [0x10]).lookback = 0x10 :=
  ⟨by decide, by decide, ⟨by decide, by decide⟩, by decide, ⟨rfl, rfl⟩, ⟨rfl, rfl, by decide⟩, ⟨rfl, rfl⟩,
    by decide +kernel⟩

theorem witness_DencbEncodesByte_fresh : pair.fresh 0 .encoder 1 := ⟨by decide, by decide, rfl⟩

/-- DENC's four kinds of check, at the boundary of each: capacity one short, source and destination one
byte beyond the end. -/
theorem witness_DencChecksInOrder : pair.nch ≤ 2 ∧ Channel.empty.valid = false ∧
    (fresh .decoder 1).dir ≠ .encoder ∧ pair.channels[0]? = some (fresh .encoder 1) ∧
    (3#24).toNat < (4#24).toNat ∧
    ((3#24).toNat ≤ (3#24).toNat ∧ 0 < (3#24).toNat ∧ 0x1000 < (0xFFE#24).toNat + (3#24).toNat) ∧
    (0xFFD#24).toNat + (3#24).toNat ≤ 0x1000 :=
  ⟨by decide, rfl, by decide, rfl, by decide, ⟨by decide, by decide, by decide⟩, by decide⟩

/-- DENC ready: at the last bytes of DMEM, with LEN = 0 anywhere, in each of R165's three relations, and
a state in which no channel content makes it ready. -/
theorem witness_DencRunsChunk : dencReady (ops pair 0xFFD 0x40 3 3) 0 (fresh .encoder 1) ∧
    dencReady (ops pair 0xFFFFFF 0xFFFFFF 0 0) 0 (fresh .encoder 1) ∧
    dencReady (ops pair 0x20 0x21 3 3) 0 (fresh .encoder 1) ∧
    dencReady (ops pair 0x20 0x20 3 3) 0 (fresh .encoder 1) ∧
    dencReady (ops pair 0x20 0x23 3 3) 0 (fresh .encoder 1) ∧
    (∀ c, ¬ dencReady (ops pair 0x10 0x40 3 2) 0 c) ∧
    0xA0000001#32 &&& 0xF0000000 = 0xA0000000 ∧ 0xA0000001#32 &&& 0x00FFFFFF ≠ 0 := by
  unfold dencReady
  refine ⟨⟨rfl, rfl, rfl, by decide⟩, ⟨rfl, rfl, rfl, by decide⟩, ⟨rfl, rfl, rfl, by decide⟩,
    ⟨rfl, rfl, rfl, by decide⟩, ⟨rfl, rfl, rfl, by decide⟩, fun c h => absurd h.2.2.2.1 (by decide +kernel), by decide +kernel, by decide +kernel⟩

/-- R165's overlapping case with both clauses inside it, and the two cases it is set against. -/
theorem witness_DencOverlapIsSequential :
    ((0x20#24).toNat < (0x21#24).toNat ∧ (0x21#24).toNat < (0x20#24).toNat + (3#24).toNat ∧
      (0 < 0x21 - 0x20) ∧ (0x21 - 0x20 ≤ 1)) ∧ (0x20#24).toNat ≤ (0x20#24).toNat ∧
    (0x20#24).toNat + (3#24).toNat ≤ (0x23#24).toNat ∧
    ∃ t, exec (.denc 0) (ops pair 0x20 0x21 3 3) = .next t :=
  ⟨by decide +kernel, by decide +kernel, by decide +kernel, _, rfl⟩

theorem witness_EncoderWriteSet : (∃ t, exec (.denc 0) (ops pair 0x10 0x40 3 3) = .next t ∧
      t.status.last = 0) ∧ (0x3F < (0x40#24).toNat ∧ (0x40#24).toNat + (3#24).toNat ≤ 0x43) ∧
    ∃ t, exec (.dencb 0 255) pair = .next t ∧ t.status.last = 0 :=
  ⟨⟨_, exec_after _ _, by decide +kernel⟩, by decide +kernel, ⟨_, exec_after _ _, by decide +kernel⟩⟩

/-- Three states of a run: after a byte command, after a command that names no channel, and after a chunk
of three bytes at 0x10, on an encoder (0) or a decoder (1). -/
def s₁ (enc : Bool) : State :=
  after (if enc then .dencb 0 7 else .ddecb 1 7) (ops pair 0x10 0x40 3 3)
def s₂ (enc : Bool) : State := after .nop (s₁ enc)
def s₃ (enc : Bool) : State := after (if enc then .denc 0 else .ddec 1) (s₂ enc)

theorem s₁_ok (enc : Bool) : (s₁ enc).status.last = 0 := by cases enc <;> decide +kernel
theorem s₃_ok (enc : Bool) : (s₃ enc).status.last = 0 := by cases enc <;> decide +kernel
theorem s₂_channels (enc : Bool) : (s₂ enc).channels = (s₁ enc).channels := by cases enc <;> rfl

theorem enc_run : EncRun 0 (ops pair 0x10 0x40 3 3)
    (7 :: (dencReads (s₂ true) (s₃ true) ++ []))
    ((s₁ true).res.setWidth 8 :: ((s₃ true).dmem.bytes (s₂ true).dst.toNat (s₂ true).len.toNat ++ []))
    (s₃ true) :=
  .byte 7 (exec_after _ _) (s₁_ok true)
    (.other (by rw [s₂_channels]) (.chunk (exec_after _ _) (s₃_ok true) (.done _)))

theorem dec_run : DecRun 1 (ops pair 0x10 0x40 3 3)
    (7 :: ((s₂ false).dmem.bytes (s₂ false).src.toNat (s₂ false).len.toNat ++ []))
    ((s₁ false).res.setWidth 8 :: ((s₃ false).dmem.bytes (s₂ false).src.toNat (s₂ false).len.toNat ++ []))
    (s₃ false) :=
  .byte 7 (exec_after _ _) (s₁_ok false)
    (.other (by rw [s₂_channels]) (.chunk (exec_after _ _) (s₃_ok false) (.done _)))

theorem fresh_encoder : (ops pair 0x10 0x40 3 3).fresh 0 .encoder 1 := ⟨by decide, by decide, rfl⟩
theorem fresh_decoder : (ops pair 0x10 0x40 3 3).fresh 1 .decoder 1 := ⟨by decide, by decide, rfl⟩

theorem witness_EncoderClosedForm : ∃ s xs ys u, s.fresh 0 .encoder 1 ∧ EncRun 0 s xs ys u ∧
    1 ≤ 3 ∧ 3 < xs.length ∧ 0 < 1 := ⟨_, _, _, _, fresh_encoder, enc_run, by decide +kernel⟩

theorem witness_DecoderClosedForm : ∃ s ys xs u, s.fresh 1 .decoder 1 ∧ DecRun 1 s ys xs u ∧
    3 < ys.length := ⟨_, _, _, _, fresh_decoder, dec_run, by decide +kernel⟩

/-- The same four bytes 7, 10, 20, 30 as byte commands on one encoder, and split on another. -/
theorem witness_EncoderSplitInvariance : ∃ a b ua ub xs ya yb, a.fresh 0 .encoder 1 ∧ b.fresh 0 .encoder 1 ∧
    EncRun 0 a xs ya ua ∧ EncRun 0 b xs yb ub ∧ xs = [7, 10, 20, 30] := by
  have e : 7 :: (dencReads (s₂ true) (s₃ true) ++ []) = [7, 10, 20, 30] := by decide +kernel
  have r := enc_run
  rw [e] at r
  have q := EncRun.byte (c := 0) 7 (exec_after _ pair) (by decide +kernel)
    (.byte 10 (exec_after _ _) (by decide +kernel) (.byte 20 (exec_after _ _) (by decide +kernel)
      (.byte 30 (exec_after _ _) (by decide +kernel) (.done _))))
  exact ⟨_, _, _, _, _, _, _, ⟨by decide, by decide, rfl⟩, fresh_encoder, q, r, rfl⟩

/-- The decoder fed 7, 3, 10, 10, what the encoder gave. -/
theorem witness_DecoderInvertsEncoder : ∃ s t us ut xs ys zs, s.fresh 0 .encoder 1 ∧ t.fresh 1 .decoder 1 ∧
    EncRun 0 s xs ys us ∧ DecRun 1 t ys zs ut ∧ ys = [7, 3, 10, 10] := by
  have e : (s₁ true).res.setWidth 8 ::
      ((s₃ true).dmem.bytes (s₂ true).dst.toNat (s₂ true).len.toNat ++ []) = [7, 3, 10, 10] := by
    decide +kernel
  have r := enc_run
  rw [e] at r
  have q := DecRun.byte (c := 1) 7 (exec_after _ pair) (by decide +kernel)
    (.byte 3 (exec_after _ _) (by decide +kernel) (.byte 10 (exec_after _ _) (by decide +kernel)
      (.byte 10 (exec_after _ _) (by decide +kernel) (.done _))))
  exact ⟨_, _, _, _, _, _, _, fresh_encoder, ⟨by decide, by decide, rfl⟩, r, q, rfl⟩

/-- Both kinds of run; a slot the latest byte is in (252 of the fourth byte), and one no byte reached. -/
theorem witness_HistoryHoldsLatestBytes :
    (∃ s xs ys u, s.fresh 0 .encoder 1 ∧ EncRun 0 s xs ys u ∧ xs.length = 4) ∧
    (∃ s xs ys u, s.fresh 1 .decoder 1 ∧ DecRun 1 s ys xs u ∧ xs.length = 4) ∧
    BitVec.ofInt 8 (-(3 : Int)) = 253#8 ∧ (∀ k : Nat, k < 4 → BitVec.ofInt 8 (-(k : Int)) ≠ 252#8) :=
  ⟨⟨_, _, _, _, fresh_encoder, enc_run, by decide +kernel⟩,
    ⟨_, _, _, _, fresh_decoder, dec_run, by decide +kernel⟩, by decide +kernel, by decide +kernel⟩

theorem witness_DdecbDecodesByte : (15 : Nat) ≤ 15 ∧ (255 : Nat) ≤ 255 ∧
    (0xB0800000#32 &&& 0xF0000000 = 0xB0000000 ∧ 0xB0800000#32 &&& 0x00FFFF00 ≠ 0) ∧ pair.nch ≤ 2 ∧
    (State.reset.channels[0]? = some Channel.empty ∧ Channel.empty.valid = false) ∧
    (pair.channels[0]? = some (fresh .encoder 1) ∧ (fresh .encoder 1).valid = true ∧
      (fresh .encoder 1).dir ≠ .decoder) ∧
    (pair.channels[1]? = some (fresh .decoder 1) ∧ (fresh .decoder 1).dir = .decoder) ∧
    (held .decoder 1 [0x10]).lookback = 0x10 :=
  ⟨by decide, by decide, ⟨by decide, by decide⟩, by decide, ⟨rfl, rfl⟩, ⟨rfl, rfl, by decide⟩, ⟨rfl, rfl⟩,
    by decide +kernel⟩

theorem witness_DdecbDecodesByte_fresh : pair.fresh 1 .decoder 1 := ⟨by decide, by decide, rfl⟩

theorem witness_DdecChecksInOrder : pair.nch ≤ 2 ∧ Channel.empty.valid = false ∧
    (fresh .encoder 1).dir ≠ .decoder ∧ pair.channels[1]? = some (fresh .decoder 1) ∧
    (fresh .decoder 1).valid = true ∧ (0 < (2#24).toNat ∧ 0x1000 < (0xFFF#24).toNat + (2#24).toNat) ∧
    ddecReady (ops pair 0xFFE 0 2 0) 1 (fresh .decoder 1) :=
  ⟨by decide, rfl, by decide, rfl, rfl, ⟨by decide, by decide⟩, ⟨rfl, rfl, rfl, by decide⟩⟩

/-- DDEC ready at the last bytes of DMEM and with LEN = 0 anywhere, and a state never ready. -/
theorem witness_DdecDecodesInPlace : ddecReady (ops pair 0xFFE 0 2 0) 1 (fresh .decoder 1) ∧
    ddecReady (ops pair 0xFFFFFF 0 0 0) 1 (fresh .decoder 1) ∧
    (∀ c, ¬ ddecReady (ops pair 0xFFF 0 2 0) 1 c) ∧
    0xC0800000#32 &&& 0xF0000000 = 0xC0000000 ∧ 0xC0800000#32 &&& 0x00FFFFFF ≠ 0 := by
  unfold ddecReady
  refine ⟨⟨rfl, rfl, rfl, by decide⟩, ⟨rfl, rfl, rfl, by decide⟩, fun c h => absurd h.2.2.2 (by decide +kernel), by decide +kernel, by decide +kernel⟩

theorem witness_DecoderWriteSet : (∃ t, exec (.ddec 1) (ops pair 0x10 0 3 0) = .next t ∧
      t.status.last = 0) ∧ (0x0F < (0x10#24).toNat ∧ (0x10#24).toNat + (3#24).toNat ≤ 0x13) ∧
    ∃ t, exec (.ddecb 1 255) pair = .next t ∧ t.status.last = 0 :=
  ⟨⟨_, exec_after _ _, by decide +kernel⟩, by decide +kernel, ⟨_, exec_after _ _, by decide +kernel⟩⟩

/-- A command that fails, one that does not, and a word that is no command. -/
theorem witness_ErrorStatements : (∃ t, exec (.denc 1) pair = .next t ∧ t.status.last ≠ 0) ∧
    (∃ t, exec (.denc 0) pair = .next t ∧ t.status.last = 0) ∧ decode 0xD0000000 = none ∧
    (next (.command 0xD0000000)).port = .command 0xD0000000 :: [] ∧
    ∃ t, step (next (.command 0xD0000000)) = .next t :=
  ⟨⟨_, exec_after _ _, by decide +kernel⟩, ⟨_, exec_after _ _, by decide +kernel⟩, by decide +kernel, by decide +kernel,
    _, rfl⟩

/-- No check fails for a CRCL (R201). -/
theorem witness_SuccessClearsLastOnly :
    firstCode (failedChecks (.crcl 1) pair) 0 ∧ ∃ t, exec (.crcl 1) pair = .next t := by
  refine ⟨?_, _, exec_after _ _⟩
  simp [failedChecks, firstCode, namedChannel, dataDir]

theorem witness_StickyClearedOnlyByReset : ∃ t,
    step { next .reset with status := ⟨7, true⟩ } = .next t ∧ t.status.sticky = false ∧
    (7#4).toNat ≤ 7 := ⟨_, rfl, by decide +kernel⟩

/-- The frames: a command of each shape, and an address outside what DENC and DDEC write. -/
theorem witness_Frames : (∃ t, exec (.denc 0) (ops pair 0x10 0x40 3 3) = .next t) ∧
    (∃ t, exec (.ddec 1) (ops pair 0x10 0x40 3 3) = .next t) ∧ (∃ t, exec (.setsrc 1) pair = .next t) ∧
    (∃ c, Instr.denc 0 = .denc c) ∧ (∃ c, Instr.ddec 1 = .ddec c) ∧
    (0x43 : Nat) ≥ (0x40#24).toNat + (3#24).toNat ∧
    (pair.channels[0]? = some (fresh .encoder 1) ∧
      (after (.dencb 0 7) pair).channels[0]? = some (encStep (fresh .encoder 1) 7).1 ∧
      (∀ d, Instr.dencb 0 7 ≠ .dinite 0 d) ∧ Instr.dencb 0 7 ≠ .drel 0) :=
  ⟨⟨_, exec_after _ _⟩, ⟨_, exec_after _ _⟩, ⟨_, exec_after _ _⟩, ⟨0, rfl⟩, ⟨1, rfl⟩, by decide,
    rfl, rfl, by simp, by decide⟩

theorem witness_StepKeepsInvariant : (next (.command 0x9000000A)).Inv ∧
    ∃ t, step (next (.command 0x9000000A)) = .next t := ⟨by decide +kernel, _, rfl⟩

theorem witness_ResetHasInvariant : 1 ≤ 16 ∧ 16 ≤ 16 ∧ 1 ≤ 2 ^ 24 ∧ 2 ^ 24 ≤ 2 ^ 24 := by decide +kernel

theorem witness_ParametersAreConstant : ∃ t, step (next .reset) = .next t := ⟨_, rfl⟩

/-! ## Runs -/

/-- A run of one command with a host write after it in the host's list. -/
def oneCommand : State := { pair with port := [.readReg 0, .command 0x10000100, .writeMem 0x10 7] }

/-- The state a step answers. -/
def afterStep (s : State) : State := (see id (step s)).getD s

theorem step_afterStep (s : State) : step s = .next (afterStep s) := by
  obtain ⟨t, h⟩ := step_next s
  simp [afterStep, h, see]

theorem one_command_run : RunTo oneCommand [0] (afterStep (afterStep oneCommand)) :=
  .access (fun h => absurd (runEnded_iff.mp h) (by decide)) rfl (by simp) (step_afterStep _)
    (.command rfl (step_afterStep _) (.ended (runEnded_iff.mpr rfl)))

/-- R238: the run ends with cmdidx at the length of its list of command words, before the later write. -/
theorem test_run_end : oneCommand.runLength = 1 ∧ (afterStep (afterStep oneCommand)).cmdidx = 1 ∧
    (afterStep (afterStep oneCommand)).port = [.writeMem 0x10 7] ∧
    (afterStep (afterStep oneCommand)).dmem.read 0x10 = 10 := by decide +kernel

theorem witness_StepKeepsRunLength : (∃ t, step oneCommand = .next t) ∧
    oneCommand.port.head? ≠ some .reset ∧ (∀ w, oneCommand.port.head? ≠ some (.command w)) ∧
    (next (.command 0)).port.head? = some (.command 0) ∧ (next .reset).port.head? = some .reset ∧
    ∃ t, step (next .reset) = .next t :=
  ⟨⟨_, rfl⟩, by decide, by simp [oneCommand], rfl, rfl, ⟨_, rfl⟩⟩

theorem witness_RunEndsAtListLength : oneCommand.noError ∧ ∃ codes u, RunTo oneCommand codes u :=
  ⟨rfl, _, _, one_command_run⟩

/-- A channel that has taken the byte 7, in a state whose next step is a DENCB on it. -/
theorem witness_StepExtendsHistory : ∃ s t h, s.channels[0]? = some h ∧ h.historyIs [7] ∧
    step s = .next t ∧ s.port = [.command 0x9000000A] :=
  ⟨{ pair with channels := [(fresh .encoder 1).store 7, fresh .decoder 1], port := [.command 0x9000000A] },
    _, _, rfl, historyIs_store (historyIs_nil rfl fun j => by simp [fresh, Channel.slot]) 7, rfl, rfl⟩

end Sys2Proof.Tests
end

section
/-! The invariant of the machine (10_state.md R10, R24, R28, R50): every effect of a command keeps the
canonical form of DMEM and the legality of the channels, an end of a command keeps the legality of STATUS,
and what the parts of a step keep, every step keeps (`step_keeps`). -/

namespace Sys2Proof.Machine

/-! ### What the parts of a step keep, a step keeps -/

/-- A property of states that does not speak of the host's list is kept by every step when it is kept by
each effect that succeeds, each error, each host write and each host reset. -/
theorem step_keeps {P : State → Prop} (hport : ∀ s l, P s → P { s with port := l })
    (heffect : ∀ i s u, P s → Effect i s u → P (succeed u))
    (herror : ∀ e s, P s → P (raiseError e s))
    (hwrite : ∀ s a b, P s → P (s.writeMem a b)) (hreset : ∀ s, P s → P s.hostReset)
    {s t : State} (hs : P s) (h : step s = .next t) : P t := by
  rcases step_cases h with ⟨-, rfl⟩ | ⟨a, rest, -, hact⟩
  · exact hs
  have hs' := hport s rest hs
  rcases hact with ⟨w, i, -, -, hx⟩ | ⟨w, -, -, rfl⟩ | ⟨n, -, rfl⟩ | ⟨x, -, rfl⟩ | ⟨x, b, -, rfl⟩ | ⟨-, rfl⟩
  · rcases exec_cases.mp hx with ⟨u, he, rfl⟩ | ⟨e, -, rfl⟩
    · exact heffect i _ u hs' he
    · exact herror e _ hs'
  · exact herror _ _ hs'
  · exact hs'
  · exact hs'
  · exact hwrite _ x b hs'
  · exact hreset _ hs'

/-! ### The parameters -/

@[simp] theorem raiseError_nch (e : ErrorCode) (s : State) : (raiseError e s).nch = s.nch := rfl
@[simp] theorem succeed_nch (s : State) : (succeed s).nch = s.nch := rfl
@[simp] theorem powerUp_nch (n m : Nat) : (State.powerUp n m).nch = n := List.length_replicate
@[simp] theorem hostReset_nch (s : State) : s.hostReset.nch = s.nch := powerUp_nch _ s.dmem.size
@[simp] theorem writeMem_nch (s : State) (a : Addr) (b : Byte) : (s.writeMem a b).nch = s.nch :=
  congrArg List.length (writeMem_channels s a b)

/-- NCH and MEM_BYTES have the values `n` and `m`. -/
def State.HasParams (n m : Nat) (s : State) : Prop := s.nch = n ∧ s.dmem.size = m

theorem step_keeps_params {n m : Nat} {s t : State} (hs : s.HasParams n m) (h : step s = .next t) :
    t.HasParams n m := by
  refine step_keeps (P := State.HasParams n m) (fun _ _ hp => hp) (fun i s u hp he => ?_)
    (fun _ _ hp => hp) (fun s a b hp => ?_) (fun s hp => ?_) hs h
  · obtain ⟨-, -, -, hn, hm, -⟩ := effect_frame he
    exact ⟨hn.trans hp.1, hm.trans hp.2⟩
  · exact ⟨(writeMem_nch s a b).trans hp.1, (writeMem_size s a b).trans hp.2⟩
  · exact ⟨(hostReset_nch s).trans hp.1, hp.2⟩

/-! ### Legal channels -/

/-- A constructed channel with a legal distance is legal (R140, R141, R142). -/
theorem construct_ok (dir : Dir) {d : Int} (h : 1 ≤ d ∧ d ≤ 256) :
    (Channel.construct dir (BitVec.ofInt 9 d)).ok := by
  refine ⟨fun _ => ?_, fun hv => ?_⟩
  · rw [construct_dist, distance_toNat h]; omega
  · simp at hv

/-- A chunk whose byte steps only store bytes keeps a constructed channel legal. -/
theorem runChunk_ok {f : Channel → Byte → Channel × Byte} (hf : ∀ c x, ∃ y, (f c x).1 = c.store y)
    (n a b : Nat) {c : Channel} (m : Memory) (h : c.ok) (hv : c.valid = true) :
    (runChunk f n a b (c, m)).1.ok := by
  refine (runChunk_channel f (fun c => c.ok ∧ c.valid = true) (fun c x hc => ?_) n a b (c, m) ⟨h, hv⟩).1
  obtain ⟨y, hy⟩ := hf c x
  rw [hy]
  exact ⟨store_ok y hc.1 hc.2, hc.2⟩

theorem encStep_stores (c : Channel) (x : Byte) : ∃ y, (encStep c x).1 = c.store y := ⟨_, encStep_fst c x⟩

theorem decStep_stores (c : Channel) (y : Byte) : ∃ x, (decStep c y).1 = c.store x := ⟨_, decStep_fst c y⟩

/-- Every channel of the state is legal. -/
def State.ChannelsOk (s : State) : Prop := ∀ c ∈ s.channels, c.ok

theorem setChannel_channelsOk {s : State} (ch : Nat) {c : Channel} (hs : s.ChannelsOk) (hc : c.ok) :
    (s.setChannel ch c).ChannelsOk := by
  intro c' hc'
  rcases List.mem_or_eq_of_mem_set hc' with hc' | rfl
  · exact hs c' hc'
  · exact hc

/-- The channel of a data command is legal. -/
theorem HasData.ok {s : State} {ch : Nat} {dir : Dir} {c : Channel} (hd : HasData s ch dir c)
    (hs : s.ChannelsOk) : c.ok := hs c (List.mem_of_getElem? hd.1)

theorem effect_channelsOk {i : Instr} {s u : State} (he : Effect i s u) (hs : s.ChannelsOk) :
    u.ChannelsOk := by
  cases i <;> simp only [Effect] at he
  case dinite ch d => obtain ⟨-, hd, rfl⟩ := he; exact setChannel_channelsOk ch hs (construct_ok _ hd)
  case dinitd ch d => obtain ⟨-, hd, rfl⟩ := he; exact setChannel_channelsOk ch hs (construct_ok _ hd)
  case drel ch => obtain ⟨-, rfl⟩ := he; exact setChannel_channelsOk ch hs empty_ok
  case dencb ch x =>
    obtain ⟨c, hd, rfl⟩ := he
    exact setChannel_channelsOk ch hs (store_ok _ (hd.ok hs) hd.2.1)
  case ddecb ch y =>
    obtain ⟨c, hd, rfl⟩ := he
    exact setChannel_channelsOk ch hs (store_ok _ (hd.ok hs) hd.2.1)
  case denc ch =>
    obtain ⟨c, hd, -, -, -, rfl⟩ := he
    exact setChannel_channelsOk ch hs (runChunk_ok encStep_stores _ _ _ _ (hd.ok hs) hd.2.1)
  case ddec ch =>
    obtain ⟨c, hd, -, rfl⟩ := he
    exact setChannel_channelsOk ch hs (runChunk_ok decStep_stores _ _ _ _ (hd.ok hs) hd.2.1)
  all_goals subst he; exact hs

/-! ### DMEM in canonical form -/

/-- A chunk whose destination is in range keeps the canonical form. An empty chunk is in range at any
base (R55), beyond MEM_BYTES too, and writes nothing. -/
theorem runChunk_wf_of_inRange (f : Channel → Byte → Channel × Byte) {s : State} {b n : Addr} (a : Nat)
    (c : Channel) (hs : s.dmem.wf) (hr : ¬ outOfRange s b n) :
    (runChunk f n.toNat a b.toNat (c, s.dmem)).2.wf := by
  rcases Nat.eq_zero_or_pos n.toNat with hn | hn
  · rw [hn]; exact hs
  · exact runChunk_wf f _ _ _ _ hs (Nat.le_of_not_lt fun hlt => hr ⟨hn, hlt⟩)

theorem effect_wf {i : Instr} {s u : State} (he : Effect i s u) (hs : s.dmem.wf) : u.dmem.wf := by
  cases i <;> simp only [Effect] at he
  case dinite => obtain ⟨-, -, rfl⟩ := he; exact hs
  case dinitd => obtain ⟨-, -, rfl⟩ := he; exact hs
  case drel => obtain ⟨-, rfl⟩ := he; exact hs
  case dencb => obtain ⟨c, -, rfl⟩ := he; exact hs
  case ddecb => obtain ⟨c, -, rfl⟩ := he; exact hs
  case denc => obtain ⟨c, -, -, -, hdst, rfl⟩ := he; exact runChunk_wf_of_inRange encStep _ c hs hdst
  case ddec => obtain ⟨c, -, hsrc, rfl⟩ := he; exact runChunk_wf_of_inRange decStep _ c hs hsrc
  all_goals subst he; exact hs

/-! ### Legal STATUS -/

/-- An error's code is 1..7, and it comes with STICKY (R200, R203). -/
theorem failed_ok (st : Status) (e : ErrorCode) : (st.failed e).ok := ⟨code_le e, fun _ => rfl⟩

/-- A LAST of 0 is legal with either STICKY (R204). -/
theorem status_zero_ok (sticky : Bool) : Status.ok ⟨0, sticky⟩ := by simp [Status.ok]

/-! ### The invariant -/

theorem succeed_inv {i : Instr} {s u : State} (hs : s.Inv) (he : Effect i s u) : (succeed u).Inv := by
  obtain ⟨hn, hn', hm, hm', hwf, hch, -⟩ := hs
  obtain ⟨-, -, -, hnch, hsize, -⟩ := effect_frame he
  rw [← hnch] at hn hn'
  rw [← hsize] at hm hm'
  have huwf : u.dmem.wf := effect_wf he hwf
  have huch : u.ChannelsOk := effect_channelsOk he hch
  exact ⟨hn, hn', hm, hm', huwf, huch, status_zero_ok _⟩

theorem raiseError_inv (e : ErrorCode) {s : State} (hs : s.Inv) : (raiseError e s).Inv := by
  obtain ⟨hn, hn', hm, hm', hwf, hch, -⟩ := hs
  exact ⟨hn, hn', hm, hm', hwf, hch, failed_ok s.status e⟩

theorem writeMem_inv {s : State} (a : Addr) (b : Byte) (hs : s.Inv) : (s.writeMem a b).Inv := by
  obtain ⟨hn, hn', hm, hm', hwf, hch, hst⟩ := hs
  simp only [State.Inv, writeMem_nch, writeMem_size, writeMem_channels, writeMem_status]
  exact ⟨hn, hn', hm, hm', writeMem_wf a b hwf, hch, hst⟩

/-- After reset every channel is legal, whatever NCH is (R39). -/
theorem replicate_empty_ok (n : Nat) : ∀ c ∈ List.replicate n Channel.empty, c.ok := by
  intro c hc
  rw [List.eq_of_mem_replicate hc]
  exact empty_ok

theorem hostReset_inv {s : State} (hs : s.Inv) : s.hostReset.Inv := by
  obtain ⟨hn, hn', hm, hm', hwf, -, -⟩ := hs
  simp only [State.Inv, hostReset_nch, hostReset_dmem]
  exact ⟨hn, hn', hm, hm', hwf, replicate_empty_ok _, status_zero_ok _⟩

theorem powerUp_inv {n m : Nat} (hn : 1 ≤ n) (hn' : n ≤ Config.nchMax) (hm : 1 ≤ m)
    (hm' : m ≤ Config.memBytesMax) : (State.powerUp n m).Inv := by
  simp only [State.Inv, powerUp_nch]
  exact ⟨hn, hn', hm, hm', powerUp_wf m, replicate_empty_ok n, status_zero_ok false⟩

theorem step_keeps_inv {s t : State} (hs : s.Inv) (h : step s = .next t) : t.Inv :=
  step_keeps (P := State.Inv) (fun _ _ hs => hs) (fun _ _ _ => succeed_inv) (fun e _ => raiseError_inv e)
    (fun _ => writeMem_inv) (fun _ => hostReset_inv) hs h

/-! ### The obligations -/

/-- Settles O51: what the parts of a step keep, the step keeps. -/
theorem stepKeepsInvariant : Obligations.StepKeepsInvariant := fun _ _ => step_keeps_inv

/-- Settles O52: the state after power-up has the invariant for all legal parameters, those of
`State.reset` among them. -/
theorem resetHasInvariant : Obligations.ResetHasInvariant :=
  ⟨fun _ _ => powerUp_inv, powerUp_inv (by decide) (by decide) (by decide) (by decide)⟩

/-- Settles O53: a step keeps the values the two parameters had before it. -/
theorem parametersAreConstant : Obligations.ParametersAreConstant :=
  fun _ _ => step_keeps_params ⟨rfl, rfl⟩

end Sys2Proof.Machine
end

section
/-! What the history of a channel holds (10_state.md R31). A data command that succeeds stores its original bytes, one after another, in the
channel it names and does nothing else to any channel (`effect_data`); the step, the runs of one channel
and the frame of the configuration all follow from that. -/

namespace Sys2Proof.Machine

/-! ### Original bytes stored one after another -/

/-- The channel after the original bytes `xs` have been stored, the first one first (R160, R180). -/
def Channel.storeAll (h : Channel) (xs : List Byte) : Channel := xs.foldl Channel.store h

theorem storeAll_concat (h : Channel) (xs : List Byte) (x : Byte) :
    h.storeAll (xs ++ [x]) = (h.storeAll xs).store x := by
  simp [Channel.storeAll]

/-- What every stored byte keeps of a channel, storing any number of them keeps. -/
theorem storeAll_keeps {P : Channel → Prop} (hP : ∀ c x, P c → P (c.store x)) {h : Channel} (hh : P h)
    (xs : List Byte) : P (h.storeAll xs) := by
  induction xs generalizing h with
  | nil => exact hh
  | cons x xs ih => exact ih (hP h x hh)

theorem holds_storeAll {h : Channel} {d : Nat} {xs : List Byte} (H : Holds h d xs) (ys : List Byte) :
    Holds (h.storeAll ys) d (xs ++ ys) := by
  induction ys generalizing h xs with
  | nil => simpa [Channel.storeAll] using H
  | cons y ys ih => simpa [Channel.storeAll] using ih (holds_store H y)

theorem historyIs_storeAll {h : Channel} {xs : List Byte} (H : h.historyIs xs) (ys : List Byte) :
    (h.storeAll ys).historyIs (xs ++ ys) :=
  historyIs_of_holds (holds_storeAll (holds_of_historyIs H) ys)

/-! ### The original bytes of a chunk -/

/-- A chunk whose byte step `i` stores `g i` stores `g 0, .., g (n - 1)`. -/
theorem runChunk_storeAll {f : Channel → Byte → Channel × Byte} {a b : Nat} {c : Channel} {m : Memory}
    {n : Nat} {g : Nat → Byte}
    (hg : ∀ i < n, (f (runChunk f i a b (c, m)).1 ((runChunk f i a b (c, m)).2.read (a + i))).1 =
      (runChunk f i a b (c, m)).1.store (g i)) :
    (runChunk f n a b (c, m)).1 = c.storeAll ((List.range n).map g) := by
  induction n with
  | zero => rfl
  | succ n ih =>
    rw [runChunk_last, hg n n.lt_succ_self, ih fun i hi => hg i (Nat.lt_succ_of_lt hi), List.range_succ,
      List.map_append, List.map_singleton, storeAll_concat]

/-- What byte step `i` of a chunk reads: where the destination starts above the source and an earlier step
has written the byte, what the chunk leaves there; else the byte as it was (R165). -/
theorem runChunk_read_source (f : Channel → Byte → Channel × Byte) {n i : Nat} (hi : i < n) (a b : Nat)
    (c : Channel) (m : Memory) :
    (runChunk f i a b (c, m)).2.read (a + i) =
      if a < b ∧ b ≤ a + i then (runChunk f n a b (c, m)).2.read (a + i) else m.read (a + i) := by
  split
  · next hov =>
    obtain ⟨j, hj⟩ := Nat.exists_eq_add_of_le hov.2
    rw [hj, runChunk_read_written f i a b _ j (by omega), runChunk_read_written f n a b _ j (by omega)]
  · next hov => exact runChunk_read_outside f i a b (a + i) (c, m) (by omega)

/-- A chunk of encoder byte steps stores the bytes it reads (R160, R165). -/
theorem runChunk_encStep_channel (n a b : Nat) (c : Channel) (m : Memory) :
    (runChunk encStep n a b (c, m)).1 = c.storeAll ((List.range n).map fun i =>
      if a < b ∧ b ≤ a + i then (runChunk encStep n a b (c, m)).2.read (a + i) else m.read (a + i)) :=
  runChunk_storeAll fun i hi => by rw [encStep_fst, runChunk_read_source encStep hi]

/-- A chunk of decoder byte steps stores the bytes it writes (R180). -/
theorem runChunk_decStep_channel (n a b : Nat) (c : Channel) (m : Memory) :
    (runChunk decStep n a b (c, m)).1 = c.storeAll ((runChunk decStep n a b (c, m)).2.bytes b n) :=
  runChunk_storeAll fun i hi => by
    rw [runChunk_read_written decStep n a b _ i hi, decStep_fst, decStep_snd]

/-! ### The original bytes of a command -/

/-- The original bytes a data command stores when it takes `s` to `t`: the bytes an encoder reads (R160),
the bytes a decoder gives (R180). -/
def originals (i : Instr) (s t : State) : List Byte :=
  match i with
  | .dencb _ x => [BitVec.ofNat 8 x]
  | .denc _ => dencReads s t
  | .ddecb _ _ => [t.res.setWidth 8]
  | .ddec _ => t.dmem.bytes s.src.toNat s.len.toNat
  | _ => []

@[simp] theorem originals_succeed (i : Instr) (s u : State) :
    originals i s (succeed u) = originals i s u := by cases i <;> rfl

/-- A data command that succeeds stores its original bytes in the channel it names, which is the only
channel it changes. -/
theorem effect_data {i : Instr} {s u : State} {ch : Nat} {dir : Dir} (hd : dataDir i = some (ch, dir))
    (he : Effect i s u) :
    ∃ c, s.channels[ch]? = some c ∧ u.channels = s.channels.set ch (c.storeAll (originals i s u)) := by
  cases i <;> simp only [dataDir, Option.some.injEq, Prod.mk.injEq, reduceCtorEq] at hd <;>
    obtain ⟨rfl, rfl⟩ := hd
  case dencb ch x =>
    obtain ⟨c, hc, rfl⟩ := he
    exact ⟨c, hc.1, rfl⟩
  case ddecb ch y =>
    obtain ⟨c, hc, rfl⟩ := he
    exact ⟨c, hc.1, by simp [originals, Channel.storeAll]⟩
  case denc ch =>
    obtain ⟨c, hc, -, -, -, rfl⟩ := he
    exact ⟨c, hc.1, congrArg (s.channels.set ch) (runChunk_encStep_channel _ _ _ c s.dmem)⟩
  case ddec ch =>
    obtain ⟨c, hc, -, rfl⟩ := he
    exact ⟨c, hc.1, congrArg (s.channels.set ch) (runChunk_decStep_channel _ _ _ c s.dmem)⟩

/-! ### R31 along a step -/

/-- A data command that succeeds appends its original bytes on the channel it names. -/
theorem commandStream_data {i : Instr} {ch : Nat} {dir : Dir} (hd : dataDir i = some (ch, dir)) (c : Nat)
    {s t : State} (h0 : t.status.last = 0) (xs : List Byte) :
    commandStream c i s t xs = if ch = c then xs ++ originals i s t else xs := by
  cases i <;> simp only [dataDir, Option.some.injEq, Prod.mk.injEq, reduceCtorEq] at hd <;>
    obtain ⟨rfl, rfl⟩ := hd <;> simp [commandStream, originals, h0]

/-- A command that fails leaves the original bytes. -/
theorem commandStream_failed (c : Nat) (i : Instr) (s : State) {t : State} (h : t.status.last ≠ 0)
    (xs : List Byte) : commandStream c i s t xs = xs := by
  unfold commandStream
  exact if_pos h

/-- A channel that is named holds what it is set to, another what it held. -/
theorem set_historyIs {l : List Channel} {c ch : Nat} {h h' : Channel} {xs ys : List Byte}
    (hc : l[c]? = some h) (hh : h.historyIs xs) (hn : ch = c → h'.historyIs ys) :
    ∃ k, (l.set ch h')[c]? = some k ∧ k.historyIs (if ch = c then ys else xs) := by
  have hlt := (List.getElem?_eq_some_iff.mp hc).1
  by_cases he : ch = c
  · subst he
    exact ⟨h', by simp [hlt], by simpa using hn rfl⟩
  · exact ⟨h, by rw [List.getElem?_set_ne he, hc], by simpa [he] using hh⟩

theorem empty_historyIs : Channel.empty.historyIs [] := historyIs_nil rfl (slot_replicate _ _ _ _)

theorem construct_historyIs (dir : Dir) (d : BitVec 9) : (Channel.construct dir d).historyIs [] :=
  historyIs_nil rfl (slot_replicate _ _ _ _)

/-- A command keeps R31's account of every channel. -/
theorem exec_keeps_historyIs {i : Instr} {s t : State} {c : Nat} {h : Channel} {xs : List Byte}
    (hc : s.channels[c]? = some h) (hh : h.historyIs xs) (hx : exec i s = .next t) :
    ∃ h', t.channels[c]? = some h' ∧ h'.historyIs (commandStream c i s t xs) := by
  rcases exec_cases.mp hx with ⟨u, he, rfl⟩ | ⟨e, -, rfl⟩
  · cases hd : dataDir i with
    | some p =>
      obtain ⟨ch, dir⟩ := p
      obtain ⟨k, hk, hu⟩ := effect_data hd he
      rw [commandStream_data hd c rfl, succeed_channels, hu]
      refine set_historyIs hc hh fun hch => ?_
      subst hch
      obtain rfl : k = h := Option.some.inj (hk.symm.trans hc)
      exact historyIs_storeAll hh _
    | none =>
      cases i <;> simp only [dataDir, reduceCtorEq] at hd
      case dinite => obtain ⟨-, -, rfl⟩ := he; exact set_historyIs hc hh fun _ => construct_historyIs _ _
      case dinitd => obtain ⟨-, -, rfl⟩ := he; exact set_historyIs hc hh fun _ => construct_historyIs _ _
      case drel => obtain ⟨-, rfl⟩ := he; exact set_historyIs hc hh fun _ => empty_historyIs
      all_goals obtain rfl := he; exact ⟨h, hc, hh⟩
  · exact ⟨h, hc, by rwa [commandStream_failed c i s (code_ne_zero e)]⟩

theorem step_keeps_historyIs {s t : State} {c : Nat} {h : Channel} {xs : List Byte}
    (hc : s.channels[c]? = some h) (hh : h.historyIs xs) (hx : step s = .next t) :
    ∃ h', t.channels[c]? = some h' ∧ h'.historyIs (stepStream c s t xs) := by
  rcases step_cases hx with ⟨hp, rfl⟩ | ⟨a, rest, hp, hact⟩
  · exact ⟨h, hc, by simpa [stepStream, hp] using hh⟩
  unfold stepStream
  rw [hp]
  rcases hact with ⟨w, i, rfl, hd, hi⟩ | ⟨w, rfl, hd, rfl⟩ | ⟨n, rfl, rfl⟩ | ⟨x, rfl, rfl⟩ |
    ⟨x, b, rfl, rfl⟩ | ⟨rfl, rfl⟩
  · simp only [hd]
    exact exec_keeps_historyIs (s := { s with port := rest }) hc hh hi
  · simp only [hd]
    exact ⟨h, hc, hh⟩
  · exact ⟨h, hc, hh⟩
  · exact ⟨h, hc, hh⟩
  · exact ⟨h, by rwa [writeMem_channels], hh⟩
  · have hlt := (List.getElem?_eq_some_iff.mp hc).1
    exact ⟨Channel.empty, by simp [State.nch, hlt], empty_historyIs⟩

/-- Settles O56: every effect, error and host action keeps R31's account. -/
theorem stepExtendsHistory : Obligations.StepExtendsHistory :=
  fun _ _ _ _ _ => step_keeps_historyIs

/-! ### R31 along a run of one channel -/

/-- Channel `c` holds the original bytes `xs` with distance `d`. -/
def State.HoldsAt (s : State) (c d : Nat) (xs : List Byte) : Prop :=
  ∃ h, s.channels[c]? = some h ∧ Holds h d xs

theorem fresh_holdsAt {s : State} {c d : Nat} {dir : Dir} (h : s.fresh c dir d) : s.HoldsAt c d [] :=
  ⟨_, h.2.2, holds_fresh dir d⟩

/-- A data command that succeeds appends its original bytes. -/
theorem exec_data_holdsAt {i : Instr} {s t : State} {c d : Nat} {dir : Dir} {xs : List Byte}
    (hs : s.HoldsAt c d xs) (hd : dataDir i = some (c, dir)) (hx : exec i s = .next t)
    (h0 : t.status.last = 0) : t.HoldsAt c d (xs ++ originals i s t) := by
  obtain ⟨h, hc, hh⟩ := hs
  obtain ⟨u, he, rfl⟩ := effect_of_success hx h0
  obtain ⟨k, hk, hu⟩ := effect_data hd he
  obtain rfl : k = h := Option.some.inj (hk.symm.trans hc)
  have hlt := (List.getElem?_eq_some_iff.mp hc).1
  rw [originals_succeed]
  exact ⟨_, by rw [succeed_channels, hu, List.getElem?_set_self hlt], holds_storeAll hh _⟩

theorem encRun_holdsAt {c d : Nat} {s u : State} {xs ys pre : List Byte} (hr : EncRun c s xs ys u)
    (hs : s.HoldsAt c d pre) : u.HoldsAt c d (pre ++ xs) := by
  induction hr generalizing pre with
  | done s => simpa using hs
  | other hsame _ ih => exact ih (by rwa [State.HoldsAt, hsame])
  | byte x hx h0 _ ih => simpa [originals] using ih (exec_data_holdsAt hs rfl hx h0)
  | chunk hx h0 _ ih => simpa [originals] using ih (exec_data_holdsAt hs rfl hx h0)

theorem decRun_holdsAt {c d : Nat} {s u : State} {xs ys pre : List Byte} (hr : DecRun c s ys xs u)
    (hs : s.HoldsAt c d pre) : u.HoldsAt c d (pre ++ xs) := by
  induction hr generalizing pre with
  | done s => simpa using hs
  | other hsame _ ih => exact ih (by rwa [State.HoldsAt, hsame])
  | byte y hx h0 _ ih => simpa [originals] using ih (exec_data_holdsAt hs rfl hx h0)
  | chunk hx h0 _ ih => simpa [originals] using ih (exec_data_holdsAt hs rfl hx h0)

/-- Settles O42: a run appends its original bytes to the empty stream a fresh channel holds. -/
theorem historyHoldsLatestBytes : Obligations.HistoryHoldsLatestBytes := by
  rintro c d s u xs ys (⟨hf, hr⟩ | ⟨hf, hr⟩)
  · obtain ⟨h, hc, hh⟩ := encRun_holdsAt hr (fresh_holdsAt hf)
    exact ⟨h, hc, historyIs_of_holds hh, lookback_of_holds hh hf.1 hf.2.1⟩
  · obtain ⟨h, hc, hh⟩ := decRun_holdsAt hr (fresh_holdsAt hf)
    exact ⟨h, hc, historyIs_of_holds hh, lookback_of_holds hh hf.1 hf.2.1⟩

end Sys2Proof.Machine
end

section
/-! Which channel a command touches and reads (42_delta_config.md R146; 10_state.md R25 to R28): only the one
it names, and of that one VALID, DIR and DIST only when it constructs or releases it. -/

namespace Sys2Proof.Machine

/-! ### A channel the command does not name is not changed -/

theorem effect_unnamed_channel {i : Instr} {s u : State} {c : Nat} (hn : namedChannel i ≠ some c)
    (he : Effect i s u) : u.channels[c]? = s.channels[c]? := by
  rcases effect_channels he with hu | ⟨ch, k, hch, hu⟩
  · rw [hu]
  · rw [hu, List.getElem?_set_ne]
    rintro rfl
    exact hn hch

theorem exec_unnamed_channel {i : Instr} {s t : State} {c : Nat} (hn : namedChannel i ≠ some c)
    (hx : exec i s = .next t) : t.channels[c]? = s.channels[c]? := by
  rcases exec_cases.mp hx with ⟨u, he, rfl⟩ | ⟨e, -, rfl⟩
  · exact effect_unnamed_channel (u := u) hn he
  · rfl

/-! ### A channel the command does not name is not read -/

section
variable {ch c : Nat} (hne : ch ≠ c) (s : State) (h : Channel)
include hne

theorem setChannel_comm (k : Channel) :
    (s.setChannel c h).setChannel ch k = (s.setChannel ch k).setChannel c h := by
  simp only [State.setChannel, List.set_comm _ _ hne]

theorem hasData_setChannel {dir : Dir} {k : Channel} :
    HasData (s.setChannel c h) ch dir k ↔ HasData s ch dir k := by
  rw [HasData, setChannel_channels, List.getElem?_set_ne hne.symm, HasData]

theorem dataChannel_setChannel (dir : Dir) :
    dataChannel ch dir (s.setChannel c h) = dataChannel ch dir s := by
  simp only [dataChannel, channelOperand, setChannel_channels, List.getElem?_set_ne hne.symm]

end

@[simp] theorem outOfRange_setChannel (s : State) (c : Nat) (h : Channel) (b n : Addr) :
    outOfRange (s.setChannel c h) b n ↔ outOfRange s b n := Iff.rfl

theorem effect_setChannel {i : Instr} {s u : State} {c : Nat} (hn : namedChannel i ≠ some c) (h : Channel)
    (he : Effect i s u) : Effect i (s.setChannel c h) (u.setChannel c h) := by
  have hne {ch : Nat} (hch : namedChannel i = some ch) : ch ≠ c := fun hc => hn (hc ▸ hch)
  cases i <;> simp only [Effect] at he ⊢
  case dinite =>
    obtain ⟨hlt, hd, rfl⟩ := he
    exact ⟨by simpa using hlt, hd, (setChannel_comm (hne rfl) s h _).symm⟩
  case dinitd =>
    obtain ⟨hlt, hd, rfl⟩ := he
    exact ⟨by simpa using hlt, hd, (setChannel_comm (hne rfl) s h _).symm⟩
  case drel =>
    obtain ⟨hlt, rfl⟩ := he
    exact ⟨by simpa using hlt, (setChannel_comm (hne rfl) s h _).symm⟩
  case dencb =>
    obtain ⟨k, hk, rfl⟩ := he
    exact ⟨k, (hasData_setChannel (hne rfl) s h).mpr hk, by rw [setChannel_comm (hne rfl)]; rfl⟩
  case ddecb =>
    obtain ⟨k, hk, rfl⟩ := he
    exact ⟨k, (hasData_setChannel (hne rfl) s h).mpr hk, by rw [setChannel_comm (hne rfl)]; rfl⟩
  case denc =>
    obtain ⟨k, hk, hcap, hsrc, hdst, rfl⟩ := he
    exact ⟨k, (hasData_setChannel (hne rfl) s h).mpr hk, hcap, hsrc, hdst,
      by rw [setChannel_comm (hne rfl)]; rfl⟩
  case ddec =>
    obtain ⟨k, hk, hsrc, rfl⟩ := he
    exact ⟨k, (hasData_setChannel (hne rfl) s h).mpr hk, hsrc,
      by rw [setChannel_comm (hne rfl)]; rfl⟩
  all_goals obtain rfl := he; rfl

theorem body_error_setChannel {i : Instr} {s : State} {c : Nat} {e : ErrorCode}
    (hn : namedChannel i ≠ some c) (h : Channel) (he : body i s = .error e) :
    body i (s.setChannel c h) = .error e := by
  have hne {ch : Nat} (hch : namedChannel i = some ch) : ch ≠ c := fun hc => hn (hc ▸ hch)
  cases i <;> simp only [body, reduceCtorEq] at he ⊢
  case dinite => simpa only [constructBody_error, setChannel_nch] using he
  case dinitd => simpa only [constructBody_error, setChannel_nch] using he
  case drel => simpa only [releaseBody_error, setChannel_nch] using he
  case dencb => rwa [dencbBody_error, dataChannel_setChannel (hne rfl), ← dencbBody_error]
  case ddecb => rwa [ddecbBody_error, dataChannel_setChannel (hne rfl), ← ddecbBody_error]
  case denc =>
    rw [dencBody_error] at he ⊢
    simpa [dataChannel_setChannel (hne rfl), hasData_setChannel (hne rfl)] using he
  case ddec =>
    rw [ddecBody_error] at he ⊢
    simpa [dataChannel_setChannel (hne rfl), hasData_setChannel (hne rfl)] using he

theorem exec_setChannel {i : Instr} {s t : State} {c : Nat} (hn : namedChannel i ≠ some c) (h : Channel)
    (hx : exec i s = .next t) : exec i (s.setChannel c h) = .next (t.setChannel c h) := by
  rcases exec_cases.mp hx with ⟨u, he, rfl⟩ | ⟨e, he, rfl⟩
  · exact exec_of_effect (effect_setChannel hn h he)
  · exact exec_of_error (body_error_setChannel hn h he)

/-- Settles O26: the effect, or the error, is the same whatever the other channel holds. -/
theorem channelsAreIndependent : Obligations.ChannelsAreIndependent :=
  fun _ _ _ _ hn hx => ⟨exec_unnamed_channel hn hx, fun h => exec_setChannel hn h hx⟩

/-! ### The configuration of the channel a command names -/

/-- A command that names a channel constructs it, releases it, or is a data command. -/
theorem namedChannel_cases {i : Instr} {c : Nat} (h : namedChannel i = some c) :
    (∃ d, i = .dinite c d) ∨ (∃ d, i = .dinitd c d) ∨ i = .drel c ∨ ∃ dir, dataDir i = some (c, dir) := by
  cases i <;> simp_all [namedChannel, dataDir]

theorem storeAll_config (h : Channel) (xs : List Byte) :
    (h.storeAll xs).valid = h.valid ∧ (h.storeAll xs).dir = h.dir ∧ (h.storeAll xs).dist = h.dist :=
  storeAll_keeps (P := fun k => k.valid = h.valid ∧ k.dir = h.dir ∧ k.dist = h.dist) (fun _ _ hk => hk)
    ⟨rfl, rfl, rfl⟩ xs

theorem exec_nch {i : Instr} {s t : State} (hx : exec i s = .next t) : t.nch = s.nch := by
  rcases exec_cases.mp hx with ⟨u, he, rfl⟩ | ⟨e, -, rfl⟩
  · obtain ⟨-, -, -, hnch, -⟩ := effect_frame he
    exact hnch
  · rfl

/-- A data command leaves the configuration of the channel it names: it only stores bytes in it. -/
theorem exec_data_config {i : Instr} {s t : State} {c : Nat} {dir : Dir} {h h' : Channel}
    (hd : dataDir i = some (c, dir)) (hx : exec i s = .next t) (hs : s.channels[c]? = some h)
    (ht : t.channels[c]? = some h') : h'.valid = h.valid ∧ h'.dir = h.dir ∧ h'.dist = h.dist := by
  rcases exec_cases.mp hx with ⟨u, he, rfl⟩ | ⟨e, -, rfl⟩
  · obtain ⟨k, hk, hu⟩ := effect_data hd he
    obtain rfl : k = h := Option.some.inj (hk.symm.trans hs)
    have hlt := (List.getElem?_eq_some_iff.mp hs).1
    rw [succeed_channels, hu, List.getElem?_set_self hlt] at ht
    obtain rfl := Option.some.inj ht
    exact storeAll_config k _
  · obtain rfl : h = h' := Option.some.inj (hs.symm.trans ht)
    exact ⟨rfl, rfl, rfl⟩

/-- Settles O50: of the commands that name the channel only the data commands are left. -/
theorem configurationFrame : Obligations.ConfigurationFrame := by
  intro i s t hx
  refine ⟨exec_nch hx, fun c h h' hs ht hE hD hR => ?_⟩
  by_cases hn : namedChannel i = some c
  · rcases namedChannel_cases hn with ⟨d, hi⟩ | ⟨d, hi⟩ | hi | ⟨dir, hd⟩
    · exact absurd hi (hE d)
    · exact absurd hi (hD d)
    · exact absurd hi hR
    · exact exec_data_config hd hx hs ht
  · rw [exec_unnamed_channel hn hx, hs] at ht
    obtain rfl := Option.some.inj ht
    exact ⟨rfl, rfl, rfl⟩

end Sys2Proof.Machine
end

section
/-! The host's list and the run (10_state.md R21; 70_reset_and_hazards.md R238): what a step leaves of the
length of the run's list of command words, and the one run from every state to its end. -/

namespace Sys2Proof.Machine

/-! ### The length of the run's list of command words -/

/-- Settles O54: the counts of a command and of a host access, one case for each action. -/
theorem stepKeepsRunLength : Obligations.StepKeepsRunLength := by
  intro s t h
  cases hp : s.port with
  | nil =>
    rw [step_idle hp] at h
    cases h
    simp
  | cons a rest =>
    by_cases hr : a = .reset
    · subst hr
      rw [step_action hp] at h
      cases h
      simp
    by_cases hc : ∃ w, a = .command w
    · obtain ⟨w, rfl⟩ := hc
      obtain ⟨hidx, hport, -⟩ := step_command_counts hp h
      have hlen : t.runLength = s.runLength := by
        rw [State.runLength, State.runLength, hp, hidx, hport, commandsLeft]
        omega
      simp [hlen, hidx]
    · have hc' : ∀ w, a ≠ .command w := fun w hw => hc ⟨w, hw⟩
      obtain ⟨hidx, hport, -, hleft⟩ := step_access_counts hp hc' hr h
      simp [State.runLength, hidx, hport, hleft, hr, hc']

/-- A step that is no reset keeps the length of the run's list. -/
theorem step_runLength {s t : State} (hr : s.port.head? ≠ some .reset) (h : step s = .next t) :
    t.runLength = s.runLength := (stepKeepsRunLength s t h).1 hr

/-! ### The run to its end -/

theorem not_runEnded_of_command {s : State} {w : Word} {rest : List HostAction}
    (hp : s.port = .command w :: rest) : ¬ s.runEnded := by
  simp [runEnded_iff, hp, commandsLeft]

/-- An access within a run is no reset, which would have ended it. -/
theorem ne_reset_of_not_runEnded {s : State} {a : HostAction} {rest : List HostAction}
    (hn : ¬ s.runEnded) (hp : s.port = a :: rest) : a ≠ .reset := by
  rintro rfl
  exact hn (runEnded_iff.mpr (by rw [hp]; rfl))

theorem runTo_exists (s : State) : ∃ codes u, RunTo s codes u := by
  generalize hp : s.port = l
  induction l generalizing s with
  | nil => exact ⟨[], s, .ended (runEnded_iff.mpr (by rw [hp]; rfl))⟩
  | cons a rest ih =>
    by_cases he : s.runEnded
    · exact ⟨[], s, .ended he⟩
    obtain ⟨t, ht⟩ := step_next s
    by_cases hc : ∃ w, a = .command w
    · obtain ⟨w, rfl⟩ := hc
      obtain ⟨-, hport, -⟩ := step_command_counts hp ht
      obtain ⟨codes, u, hu⟩ := ih t hport
      exact ⟨_, u, .command hp ht hu⟩
    · have hc' : ∀ w, a ≠ .command w := fun w hw => hc ⟨w, hw⟩
      obtain ⟨-, hport, -⟩ := step_access_counts hp hc' (ne_reset_of_not_runEnded he hp) ht
      obtain ⟨codes, u, hu⟩ := ih t hport
      exact ⟨codes, u, .access he hp hc' ht hu⟩

theorem next_inj {s t t' : State} (h : step s = .next t) (h' : step s = .next t') : t' = t :=
  Host.Outcome.next.inj (h'.symm.trans h)

theorem runTo_unique {s u u' : State} {codes codes' : List (BitVec 4)} (h : RunTo s codes u)
    (h' : RunTo s codes' u') : codes' = codes ∧ u' = u := by
  induction h generalizing codes' with
  | ended he =>
    cases h' with
    | ended => exact ⟨rfl, rfl⟩
    | command hp => exact absurd he (not_runEnded_of_command hp)
    | access hn => exact absurd he hn
  | command hp hs _ ih =>
    cases h' with
    | ended he => exact absurd he (not_runEnded_of_command hp)
    | command _ hs' hr' =>
      obtain rfl := next_inj hs hs'
      obtain ⟨rfl, rfl⟩ := ih hr'
      exact ⟨rfl, rfl⟩
    | access _ hp' hc' =>
      obtain ⟨rfl, -⟩ := List.cons.inj (hp'.symm.trans hp)
      exact absurd rfl (hc' _)
  | access hn hp hc hs _ ih =>
    cases h' with
    | ended he => exact absurd he hn
    | command hp' =>
      obtain ⟨rfl, -⟩ := List.cons.inj (hp'.symm.trans hp)
      exact absurd rfl (hc _)
    | access _ _ _ hs' hr' =>
      obtain rfl := next_inj hs hs'
      exact ih hr'

/-- A run ends where no command word of it is left, having taken the list up to its last command. -/
theorem runTo_taken {s u : State} {codes : List (BitVec 4)} (h : RunTo s codes u) :
    ∃ taken, s.port = taken ++ u.port ∧ commandsLeft u.port = 0 ∧
      (taken = [] ∨ ∃ w, taken.getLast? = some (.command w)) := by
  induction h with
  | ended he => exact ⟨[], rfl, runEnded_iff.mp he, .inl rfl⟩
  | @command s t u w rest codes hp hs _ ih =>
    obtain ⟨taken, hport, h0, hlast⟩ := ih
    obtain ⟨-, ht, -⟩ := step_command_counts hp hs
    refine ⟨.command w :: taken, by rw [hp, ← ht, hport]; rfl, h0, .inr ?_⟩
    rcases hlast with rfl | ⟨w', hw'⟩
    · exact ⟨w, rfl⟩
    · exact ⟨w', by rw [List.getLast?_cons, hw', Option.getD_some]⟩
  | @access s t u a rest codes hn hp hc hs _ ih =>
    obtain ⟨taken, hport, h0, hlast⟩ := ih
    obtain ⟨-, ht, -, hleft⟩ := step_access_counts hp hc (ne_reset_of_not_runEnded hn hp) hs
    refine ⟨a :: taken, by rw [hp, ← ht, hport]; rfl, h0, .inr ?_⟩
    rcases hlast with rfl | ⟨w', hw'⟩
    · rw [runEnded_iff, hleft, ← ht, hport] at hn
      exact absurd h0 hn
    · exact ⟨w', by rw [List.getLast?_cons, hw', Option.getD_some]⟩

/-- A run has one code for each of its commands. -/
theorem runTo_length {s u : State} {codes : List (BitVec 4)} (h : RunTo s codes u) :
    codes.length = commandsLeft s.port := by
  induction h with
  | ended he => exact (runEnded_iff.mp he).symm
  | command hp hs _ ih =>
    obtain ⟨-, ht, -⟩ := step_command_counts hp hs
    simp [ih, ht, hp, commandsLeft]
  | access hn hp hc hs _ ih =>
    obtain ⟨-, ht, -, hleft⟩ := step_access_counts hp hc (ne_reset_of_not_runEnded hn hp) hs
    rw [ih, ht, hleft]

theorem runTo_cmdidx {s u : State} {codes : List (BitVec 4)} (h : RunTo s codes u) :
    u.cmdidx = s.runLength := by
  induction h with
  | ended he => exact he
  | command hp hs _ ih => exact ih.trans (step_runLength (by simp [hp]) hs)
  | access hn hp _ hs _ ih =>
    exact ih.trans (step_runLength (by simpa [hp] using ne_reset_of_not_runEnded hn hp) hs)

/-- STICKY at the end of a run says whether it was set at the start or some command failed. -/
theorem runTo_sticky {s u : State} {codes : List (BitVec 4)} (h : RunTo s codes u) :
    u.status.sticky = true ↔ s.status.sticky = true ∨ ∃ k ∈ codes, k ≠ 0 := by
  induction h with
  | ended => simp
  | command hp hs _ ih =>
    obtain ⟨-, -, ht⟩ := step_command_counts hp hs
    rw [ih, ht, List.exists_mem_cons_iff, or_assoc]
  | access hn hp hc hs _ ih =>
    obtain ⟨-, -, ht, -⟩ := step_access_counts hp hc (ne_reset_of_not_runEnded hn hp) hs
    rw [ih, ht]

/-- From STICKY 0 a run that ends with STICKY 0 is one whose every command succeeded (R238). -/
theorem runTo_noError {s u : State} {codes : List (BitVec 4)} (h : RunTo s codes u) (hs : s.noError) :
    u.noError ↔ ∀ k ∈ codes, k = 0 := by
  rw [State.noError] at hs
  rw [State.noError, ← Bool.not_eq_true, runTo_sticky h, hs]
  simp

/-- Settles O55: the run exists and is the only one, and each clause is a lemma about every run. -/
theorem runEndsAtListLength : Obligations.RunEndsAtListLength := by
  intro s
  obtain ⟨codes, u, h⟩ := runTo_exists s
  exact ⟨codes, u, h, fun _ _ => runTo_unique h, runTo_cmdidx h, runTo_length h, runTo_taken h,
    runTo_sticky h, runTo_noError h⟩

end Sys2Proof.Machine
end

section
/-! What a step leaves of the registers (10_state.md R21 to R24), and what the host reads of them (R34 to
R36). -/

namespace Sys2Proof.Machine

/-! ### Commands and the registers -/

/-- Settles O7: the step is the action's effect, and the word's effect is that of its command. -/
theorem stepRunsDecodedCommand : Obligations.StepRunsDecodedCommand := by
  intro s w rest i hp hd
  rw [step_action hp, act, runWord, hd]

theorem exec_next (i : Instr) (s : State) : ∃ t, exec i s = .next t := by
  cases hb : body i s with
  | ok u => exact ⟨_, exec_of_effect (body_ok.mp hb)⟩
  | error e => exact ⟨_, exec_of_error hb⟩

/-- Settles O46: a body answers a state or an error, and either way the command ends and counts. -/
theorem nothingStopsTheBlock : Obligations.NothingStopsTheBlock := by
  refine ⟨fun i s => ?_, step_next⟩
  obtain ⟨t, ht⟩ := exec_next i s
  obtain ⟨hidx, hport, -⟩ := exec_counts ht
  exact ⟨t, ht, hidx, hport⟩

/-- Settles O48: the frame of an effect; an error writes no register but STATUS. -/
theorem registerFrame : Obligations.RegisterFrame := by
  intro i s t hx
  rcases exec_cases.mp hx with ⟨u, he, rfl⟩ | ⟨e, -, rfl⟩
  · obtain ⟨-, -, hport, -, -, hsrc, hdst, hlen, hcap, hres⟩ := effect_frame he
    exact ⟨hsrc, hdst, hlen, hcap, hres, hport⟩
  · simp

/-- STICKY, once set, stays set but for a reset (R24). -/
theorem step_sticky {s t : State} (hx : step s = .next t) (hs : s.status.sticky = true)
    (hr : ∀ rest, s.port ≠ .reset :: rest) : t.status.sticky = true := by
  cases hp : s.port with
  | nil =>
    rw [step_idle hp] at hx
    cases hx
    exact hs
  | cons a rest =>
    by_cases hc : ∃ w, a = .command w
    · obtain ⟨w, rfl⟩ := hc
      obtain ⟨-, -, ht⟩ := step_command_counts hp hx
      exact ht.mpr (.inl hs)
    · have ha : a ≠ .reset := fun ha => hr rest (by rw [hp, ha])
      obtain ⟨-, -, ht, -⟩ := step_access_counts hp (fun w hw => hc ⟨w, hw⟩) ha hx
      rwa [ht]

/-- LAST is 0..7 (R24, R200). -/
def State.LastOk (s : State) : Prop := s.status.last.toNat ≤ 7

theorem step_keeps_lastOk {s t : State} (hs : s.LastOk) (hx : step s = .next t) : t.LastOk :=
  step_keeps (P := State.LastOk) (fun _ _ hs => hs) (fun _ _ _ _ _ => Nat.zero_le 7)
    (fun e _ _ => code_le e) (fun s a b hs => by rwa [State.LastOk, writeMem_status])
    (fun _ _ => Nat.zero_le 7) hs hx

/-- Settles O47: STICKY stays set but for a reset, and every part of a step leaves a legal LAST. -/
theorem stickyClearedOnlyByReset : Obligations.StickyClearedOnlyByReset := by
  intro s t hx
  refine ⟨fun hs ht => ?_, fun hs => step_keeps_lastOk hs hx⟩
  by_contra hr
  have := step_sticky hx hs fun rest hp => hr ⟨rest, hp⟩
  simp [ht] at this

/-! ### What the host reads -/

/-- The number of a concatenation: the high part counts from the low part's width up. -/
theorem toNat_append_eq {m n : Nat} (x : BitVec m) (y : BitVec n) :
    (x ++ y).toNat = 2 ^ n * x.toNat + y.toNat := by
  rw [BitVec.toNat_append, Nat.shiftLeft_eq, Nat.mul_comm, Nat.two_pow_add_eq_or_of_lt y.isLt]

theorem status_word_toNat (st : Status) : st.word.toNat = st.last.toNat + 256 * st.sticky.toNat := by
  simp only [Status.word, toNat_append_eq, BitVec.toNat_ofBool, BitVec.ofNat_eq_ofNat, BitVec.toNat_ofNat]
  omega

theorem paramWord_toNat {s : State} (hn : s.nch ≤ 16) (hm : s.dmem.size ≤ 2 ^ 24) :
    s.paramWord.toNat = s.nch + 256 * (s.dmem.size - 1) := by
  simp only [State.paramWord, toNat_append_eq, BitVec.ofNat_eq_ofNat, BitVec.toNat_ofNat]
  omega

theorem dir_bit_toNat (dir : Dir) : dir.bit.toNat = if dir = .decoder then 1 else 0 := by
  cases dir <;> rfl

theorem cfgWord_toNat (h : Channel) : h.cfgWord.toNat =
    h.dist.toNat + 512 * (if h.dir = .decoder then 1 else 0) + 1024 * h.valid.toNat := by
  simp only [Channel.cfgWord, toNat_append_eq, BitVec.toNat_ofBool, dir_bit_toNat,
    BitVec.ofNat_eq_ofNat, BitVec.toNat_ofNat]
  omega

theorem addr_toNat_setWidth (a : Addr) : (a.setWidth 32).toNat = a.toNat :=
  BitVec.toNat_setWidth_of_le (by decide)

/-- Above PARAM the host reads CHCFG of the channels from 0x10 up, and 0 at every other number (R36). -/
theorem readReg_above_param (s : State) {n : BitVec 8} (hn : 0x07 ≤ n.toNat) :
    s.readReg n =
      if n.toNat < 0x10 then 0 else (s.channels[n.toNat - 0x10]?.map Channel.cfgWord).getD 0 := by
  have hne (k : BitVec 8) (hk : k.toNat < 0x07) : n ≠ k := by rintro rfl; omega
  unfold State.readReg
  rw [if_neg (hne 0x00 (by decide)), if_neg (hne 0x01 (by decide)), if_neg (hne 0x02 (by decide)),
    if_neg (hne 0x03 (by decide)), if_neg (hne 0x04 (by decide)), if_neg (hne 0x05 (by decide)),
    if_neg (hne 0x06 (by decide))]
  cases s.channels[n.toNat - 0x10]? <;> rfl

theorem readReg_channel {s : State} {n : BitVec 8} {c : Nat} {h : Channel} (hc : s.channels[c]? = some h)
    (hn : n.toNat = 0x10 + c) : s.readReg n = h.cfgWord := by
  rw [readReg_above_param s (by omega), if_neg (by omega), hn, Nat.add_sub_cancel_left, hc]
  rfl

theorem readReg_unassigned {s : State} {n : BitVec 8} (hn : 0x07 ≤ n.toNat)
    (h : n.toNat < 0x10 ∨ 0x10 + s.nch ≤ n.toNat) : s.readReg n = 0 := by
  rw [readReg_above_param s hn]
  split
  · rfl
  · have hnone : s.channels[n.toNat - 0x10]? = none :=
      List.getElem?_eq_none (by rw [State.nch] at h; omega)
    rw [hnone]
    rfl

/-- A host access changes DMEM at most, beside the host's list (R36, R59). -/
theorem step_access_frame {s t : State} {a : HostAction} {rest : List HostAction} (hp : s.port = a :: rest)
    (hc : ∀ w, a ≠ .command w) (hr : a ≠ .reset) (hx : step s = .next t) :
    t = { s with port := rest, dmem := t.dmem } := by
  rw [step_action hp] at hx
  cases a with
  | command w => exact absurd rfl (hc w)
  | reset => exact absurd rfl hr
  | readReg n => cases hx; rfl
  | readMem x => cases hx; rfl
  | writeMem x b =>
    cases hx
    rw [writeMem_eq]

/-- Settles O10: the words of STATUS, PARAM and CHCFG as numbers, and the frame of a host access. -/
theorem hostRegisterReads : Obligations.HostRegisterReads := by
  intro s _ hn _ hm
  refine ⟨status_word_toNat s.status, rfl, addr_toNat_setWidth s.src, addr_toNat_setWidth s.dst,
    addr_toNat_setWidth s.len, addr_toNat_setWidth s.cap, paramWord_toNat hn hm, fun n c h hc hnc => ?_,
    fun n h7 h => readReg_unassigned h7 h, fun n rest hp => ⟨rfl, step_action hp⟩,
    fun a rest t => step_access_frame⟩
  rw [readReg_channel hc hnc, cfgWord_toNat]

end Sys2Proof.Machine
end

section
/-! What commands and host accesses leave of DMEM (20_memory.md R50, R52, R59). -/

namespace Sys2Proof.Machine

/-! ### Commands and DMEM -/

/-- The only bytes an effect writes are the LEN bytes from DST under DENC and from SRC under DDEC (R52). -/
theorem effect_read_frame {i : Instr} {s u : State} (he : Effect i s u) (a : Nat)
    (henc : (∃ c, i = .denc c) → (a < s.dst.toNat ∨ s.dst.toNat + s.len.toNat ≤ a))
    (hdec : (∃ c, i = .ddec c) → (a < s.src.toNat ∨ s.src.toNat + s.len.toNat ≤ a)) :
    u.dmem.read a = s.dmem.read a := by
  cases i <;> simp only [Effect] at he
  case dinite => obtain ⟨-, -, rfl⟩ := he; rfl
  case dinitd => obtain ⟨-, -, rfl⟩ := he; rfl
  case drel => obtain ⟨-, rfl⟩ := he; rfl
  case dencb => obtain ⟨c, -, rfl⟩ := he; rfl
  case ddecb => obtain ⟨c, -, rfl⟩ := he; rfl
  case denc ch =>
    obtain ⟨c, -, -, -, -, rfl⟩ := he
    exact runChunk_read_outside encStep _ _ _ a (c, s.dmem) (henc ⟨ch, rfl⟩)
  case ddec ch =>
    obtain ⟨c, -, -, rfl⟩ := he
    exact runChunk_read_outside decStep _ _ _ a (c, s.dmem) (hdec ⟨ch, rfl⟩)
  all_goals subst he; rfl

/-- Settles O49: the frame of an effect; an error leaves DMEM whole. -/
theorem memoryFrame : Obligations.MemoryFrame := by
  intro i s t hx
  rcases exec_cases.mp hx with ⟨u, he, rfl⟩ | ⟨e, -, rfl⟩
  · obtain ⟨-, -, -, -, hsize, -⟩ := effect_frame he
    exact ⟨hsize, effect_read_frame (u := u) he⟩
  · exact ⟨rfl, fun _ _ _ => rfl⟩

/-! ### Host accesses and DMEM -/

theorem readMem_of_lt {s : State} {a : Addr} (h : a.toNat < s.dmem.size) :
    s.readMem a = s.dmem.read a.toNat := if_pos h

theorem readMem_of_le {s : State} {a : Addr} (h : s.dmem.size ≤ a.toNat) : s.readMem a = 0 :=
  if_neg (Nat.not_lt.mpr h)

theorem writeMem_of_lt {s : State} {a : Addr} (b : Byte) (h : a.toNat < s.dmem.size) :
    s.writeMem a b = { s with dmem := s.dmem.write a.toNat b } := if_pos h

theorem writeMem_of_le {s : State} {a : Addr} (b : Byte) (h : s.dmem.size ≤ a.toNat) :
    s.writeMem a b = s := if_neg (Nat.not_lt.mpr h)

/-- A host write leaves every byte but the one it names (R59). -/
theorem writeMem_read_ne (s : State) {a : Addr} {x : Nat} (b : Byte) (hx : x ≠ a.toNat) :
    (s.writeMem a b).dmem.read x = s.dmem.read x := by
  rcases Nat.lt_or_ge a.toNat s.dmem.size with h | h
  · rw [writeMem_of_lt b h]
    exact read_write_ne s.dmem b hx
  · rw [writeMem_of_le b h]

/-- A host write of a byte DMEM has sets it (R59). -/
theorem writeMem_read_self {s : State} {a : Addr} (b : Byte) (h : a.toNat < s.dmem.size) :
    (s.writeMem a b).dmem.read a.toNat = b := by
  rw [writeMem_of_lt b h]
  exact read_write_self s.dmem _ b

/-- Settles O9: DMEM after a write is that of `writeMem` on the state with the action taken. -/
theorem hostMemoryAccess : Obligations.HostMemoryAccess := by
  refine ⟨fun s a rest hp => ⟨step_action hp, fun h => ?_, fun h => ?_⟩, fun s a b rest hp => ?_⟩
  · rw [HostAction.reply, readMem_of_lt h]
  · rw [HostAction.reply, readMem_of_le h]
    rfl
  · refine ⟨(s.writeMem a b).dmem, ?_, writeMem_size s a b, fun x => writeMem_read_ne s b,
      writeMem_read_self b, fun h => ?_⟩
    · rw [step_action hp, act, writeMem_eq, writeMem_eq]
    · rw [writeMem_of_le b h]

end Sys2Proof.Machine
end

section
/-! Decoding and encoding (30_encoding.md R70 to R81): the decoder reads from a command's word the operands
the encoder wrote, the rows of the opcode map R74 are one for each opcode 0x0..0xC, what a row selects is
the word of its command, and what no row selects is illegal. The pseudo-instructions are their commands. -/

namespace Sys2Proof.Machine

/-! ### Operands and their fields (R73) -/

theorem imm24_toNat {v : Nat} (h : imm24Ok v = true) : (BitVec.ofNat 24 v).toNat = v :=
  Nat.mod_eq_of_lt (Nat.lt_succ_of_le (of_decide_eq_true h))

theorem imm8_toNat {v : Nat} (h : imm8Ok v = true) : (BitVec.ofNat 8 v).toNat = v :=
  Nat.mod_eq_of_lt (Nat.lt_succ_of_le (of_decide_eq_true h))

theorem ch_toNat {c : Nat} (h : chOk c = true) : (BitVec.ofNat 4 c).toNat = c :=
  Nat.mod_eq_of_lt (Nat.lt_succ_of_le (of_decide_eq_true h))

theorem simm16_toInt {d : Int} (h : simm16Ok d = true) : (BitVec.ofInt 16 d).toInt = d := by
  obtain ⟨hlo, hhi⟩ : -32768 ≤ d ∧ d ≤ 32767 := by simpa [simm16Ok] using h
  exact BitVec.toInt_ofInt_eq_self (by decide) hlo (Int.lt_add_one_of_le hhi)

theorem imm24Ok_imm24Field (w : Word) : imm24Ok (imm24Field w) = true :=
  decide_eq_true (Nat.le_of_lt_succ (field w 0 24).isLt)

theorem imm8Ok_imm8Field (w : Word) : imm8Ok (imm8Field w) = true :=
  decide_eq_true (Nat.le_of_lt_succ (field w 0 8).isLt)

theorem chOk_chField (w : Word) : chOk (chField w) = true :=
  decide_eq_true (Nat.le_of_lt_succ (field w 24 4).isLt)

theorem simm16Ok_simm16Field (w : Word) : simm16Ok (simm16Field w) = true := by
  have hlo : -32768 ≤ simm16Field w := BitVec.le_toInt _
  have hhi : simm16Field w < 32768 := BitVec.toInt_lt
  simp only [simm16Ok, Bool.and_eq_true, decide_eq_true_eq]
  omega

/-! ### What the decoder reads from a word of each format (R72) -/

theorem reads_formatN (op : BitVec 4) : reservedZero (formatN op) 0 28 = true := by
  simp [reservedZero, field_formatN]

theorem reads_formatI24 (op : BitVec 4) {v : Nat} (h : imm24Ok v = true) :
    reservedZero (formatI24 op v) 24 4 = true ∧ imm24Field (formatI24 op v) = v := by
  simp [reservedZero, imm24Field, field_formatI24, -BitVec.toNat_ofNat, imm24_toNat h]

theorem reads_formatB (op : BitVec 4) {v : Nat} (h : imm8Ok v = true) :
    reservedZero (formatB op v) 8 20 = true ∧ imm8Field (formatB op v) = v := by
  simp [reservedZero, imm8Field, field_formatB, -BitVec.toNat_ofNat, imm8_toNat h]

theorem reads_formatCD (op : BitVec 4) {c : Nat} {d : Int} (hc : chOk c = true) (hd : simm16Ok d = true) :
    reservedZero (formatCD op c d) 16 8 = true ∧ chField (formatCD op c d) = c ∧
      simm16Field (formatCD op c d) = d := by
  simp [reservedZero, chField, simm16Field, field_formatCD, -BitVec.toNat_ofNat, -BitVec.toInt_ofInt,
    ch_toNat hc, simm16_toInt hd]

theorem reads_formatC (op : BitVec 4) {c : Nat} (h : chOk c = true) :
    reservedZero (formatC op c) 0 24 = true ∧ chField (formatC op c) = c := by
  simp [reservedZero, chField, field_formatC, -BitVec.toNat_ofNat, ch_toNat h]

theorem reads_formatCB (op : BitVec 4) {c v : Nat} (hc : chOk c = true) (hv : imm8Ok v = true) :
    reservedZero (formatCB op c v) 8 16 = true ∧ chField (formatCB op c v) = c ∧
      imm8Field (formatCB op c v) = v := by
  simp [reservedZero, chField, imm8Field, field_formatCB, -BitVec.toNat_ofNat, ch_toNat hc, imm8_toNat hv]

/-- Settles O1: each command's word has its row's opcode, and the fields of its format read back. -/
theorem decodeOfEncodeGivesInstr : Obligations.DecodeOfEncodeGivesInstr := by
  intro i h
  cases i <;> simp only [Instr.wellFormed, Bool.and_eq_true] at h
  case nop => rw [decode_op0 Laws.OpcodeField.nop]; simp [encode, reads_formatN]
  case setsrc v => rw [decode_op1 (Laws.OpcodeField.setsrc v)]; simp [encode, reads_formatI24 _ h]
  case setdst v => rw [decode_op2 (Laws.OpcodeField.setdst v)]; simp [encode, reads_formatI24 _ h]
  case setlen v => rw [decode_op3 (Laws.OpcodeField.setlen v)]; simp [encode, reads_formatI24 _ h]
  case setcap v => rw [decode_op4 (Laws.OpcodeField.setcap v)]; simp [encode, reads_formatI24 _ h]
  case crcl v => rw [decode_op5 (Laws.OpcodeField.crcl v)]; simp [encode, reads_formatB _ h]
  case dinite c d => rw [decode_op6 (Laws.OpcodeField.dinite c d)]; simp [encode, reads_formatCD _ h.1 h.2]
  case dinitd c d => rw [decode_op7 (Laws.OpcodeField.dinitd c d)]; simp [encode, reads_formatCD _ h.1 h.2]
  case drel c => rw [decode_op8 (Laws.OpcodeField.drel c)]; simp [encode, reads_formatC _ h]
  case dencb c x => rw [decode_op9 (Laws.OpcodeField.dencb c x)]; simp [encode, reads_formatCB _ h.1 h.2]
  case denc c => rw [decode_opA (Laws.OpcodeField.denc c)]; simp [encode, reads_formatC _ h]
  case ddecb c y => rw [decode_opB (Laws.OpcodeField.ddecb c y)]; simp [encode, reads_formatCB _ h.1 h.2]
  case ddec c => rw [decode_opC (Laws.OpcodeField.ddec c)]; simp [encode, reads_formatC _ h]

/-! ### The rows of the opcode map (R74) -/

/-- The reserved field of opcode `k` in R72: its lowest bit and its width. Opcode 0x0 is the last case; the
reserved opcodes have no row and no format. -/
def reservedBits : Nat → Nat × Nat
  | 0x1 | 0x2 | 0x3 | 0x4 => (24, 4)
  | 0x5 => (8, 20)
  | 0x6 | 0x7 => (16, 8)
  | 0x8 | 0xA | 0xC => (0, 24)
  | 0x9 | 0xB => (8, 16)
  | _ => (0, 28)

/-- The check of the reserved field of opcode `k`. -/
def reservedClear (k : Nat) (w : Word) : Bool := reservedZero w (reservedBits k).1 (reservedBits k).2

/-- The mask of the reserved field of opcode `k`. -/
def reservedMask (k : Nat) : Word :=
  (BitVec.allOnes (reservedBits k).2).setWidth 32 <<< (reservedBits k).1

theorem reservedBits_le (k : Nat) : (reservedBits k).1 + (reservedBits k).2 ≤ 28 := by
  unfold reservedBits
  split <;> decide

/-- The `mask` and `match` columns of R74: the opcode in bits 31:28 and 0 in its reserved field. -/
theorem opcodeMap_columns : ∀ k (hk : k < opcodeMap.length),
    opcodeMap[k].mask = 0xF0000000 ||| reservedMask k ∧
    opcodeMap[k].pattern = (BitVec.ofNat 4 k).setWidth 32 <<< 28 ∧
    (0xF0000000 : Word) &&& reservedMask k = 0 ∧ opcodeMap[k].pattern &&& reservedMask k = 0 ∧
    opcodeMap[k].pattern &&& 0xF0000000 = opcodeMap[k].pattern := by
  decide

/-- Row `k` of the map selects the words of opcode `k` whose reserved field is 0. -/
theorem selects_iff (w : Word) {k : Nat} (hk : k < opcodeMap.length) :
    opcodeMap[k].selects w ↔ opField w = k ∧ reservedClear k w = true := by
  obtain ⟨hm, hp, h1, h2, h3⟩ := opcodeMap_columns k hk
  exact row_iff w _ _ k _ _ (hk.trans (by decide)) (reservedBits_le k) hm hp h1 h2 h3

/-- The decoder is the map (R75): for a word of opcode `k`, the check and the operands of row `k`. -/
theorem decode_row {w : Word} : ∀ {k : Nat} (hk : k < opcodeMap.length), opField w = k →
    decode w = if reservedClear k w then some (opcodeMap[k].command w) else none
  | 0x0, _, h => decode_op0 h
  | 0x1, _, h => decode_op1 h
  | 0x2, _, h => decode_op2 h
  | 0x3, _, h => decode_op3 h
  | 0x4, _, h => decode_op4 h
  | 0x5, _, h => decode_op5 h
  | 0x6, _, h => decode_op6 h
  | 0x7, _, h => decode_op7 h
  | 0x8, _, h => decode_op8 h
  | 0x9, _, h => decode_op9 h
  | 0xA, _, h => decode_opA h
  | 0xB, _, h => decode_opB h
  | 0xC, _, h => decode_opC h
  | k + 13, hk, _ => absurd hk (Nat.not_lt.mpr (Nat.le_add_left 13 k))

/-- A word a row selects decodes to that row's command (R75). -/
theorem decode_of_selects {w : Word} {r : OpcodeRow} (hr : r ∈ opcodeMap) (hw : r.selects w) :
    decode w = some (r.command w) := by
  obtain ⟨k, hk, rfl⟩ := List.getElem_of_mem hr
  obtain ⟨hop, hz⟩ := (selects_iff w hk).mp hw
  rw [decode_row hk hop, if_pos hz]

/-- A word that decodes is selected by a row, and decodes to that row's command. -/
theorem selects_of_decode {w : Word} {i : Instr} (h : decode w = some i) :
    ∃ r ∈ opcodeMap, r.selects w ∧ r.command w = i := by
  rcases Nat.lt_or_ge (opField w) opcodeMap.length with hk | hk
  · rw [decode_row hk rfl] at h
    split at h
    next hz => exact ⟨_, List.getElem_mem hk, (selects_iff w hk).mpr ⟨rfl, hz⟩, Option.some.inj h⟩
    next => cases h
  · rw [decode_reserved hk] at h
    cases h

theorem decode_eq_none_iff {w : Word} : decode w = none ↔ ∀ r ∈ opcodeMap, ¬ r.selects w := by
  refine ⟨fun h r hr hw => ?_, fun h => ?_⟩
  · rw [decode_of_selects hr hw] at h
    cases h
  · rw [Option.eq_none_iff_forall_not_mem]
    intro i hi
    obtain ⟨r, hr, hw, -⟩ := selects_of_decode hi
    exact h r hr hw

/-- No word has two opcodes, so the rows are disjoint. -/
theorem opcodeMap_disjoint :
    opcodeMap.Pairwise (fun p q => ∀ w : Word, ¬ (p.selects w ∧ q.selects w)) := by
  rw [List.pairwise_iff_getElem]
  rintro j k hj hk hjk w ⟨hwj, hwk⟩
  obtain ⟨hopj, -⟩ := (selects_iff w hj).mp hwj
  obtain ⟨hopk, -⟩ := (selects_iff w hk).mp hwk
  omega

/-! ### The word of the fields read from it (R72) -/

section
variable {w : Word} {op : BitVec 4}

theorem formatN_fields (hop : opField w = op.toNat) (hz : reservedZero w 0 28 = true) :
    formatN op = w := by
  rw [reservedZero_iff] at hz
  obtain ⟨ho, hz'⟩ := field_formatN op
  exact word_ext_op _ w 28 (by decide) (by rw [opField, ho, hop])
    (BitVec.eq_of_zero_length rfl) (hz'.trans hz.symm)

theorem formatI24_fields (hop : opField w = op.toNat) (hz : reservedZero w 24 4 = true) :
    formatI24 op (imm24Field w) = w := by
  rw [reservedZero_iff] at hz
  obtain ⟨ho, hz', hv⟩ := field_formatI24 op (imm24Field w)
  exact word_ext_op _ w 24 (by decide) (by rw [opField, ho, hop]) (hz'.trans hz.symm)
    (hv.trans (by simp [imm24Field]))

theorem formatB_fields (hop : opField w = op.toNat) (hz : reservedZero w 8 20 = true) :
    formatB op (imm8Field w) = w := by
  rw [reservedZero_iff] at hz
  obtain ⟨ho, hz', hv⟩ := field_formatB op (imm8Field w)
  exact word_ext_op _ w 8 (by decide) (by rw [opField, ho, hop]) (hz'.trans hz.symm)
    (hv.trans (by simp [imm8Field]))

theorem formatCD_fields (hop : opField w = op.toNat) (hz : reservedZero w 16 8 = true) :
    formatCD op (chField w) (simm16Field w) = w := by
  rw [reservedZero_iff] at hz
  obtain ⟨ho, hc, hz', hd⟩ := field_formatCD op (chField w) (simm16Field w)
  exact word_ext_op _ w 16 (by decide) (by rw [opField, ho, hop])
    (field_split _ w 16 8 4 (hz'.trans hz.symm) (hc.trans (by simp [chField])))
    (hd.trans BitVec.ofInt_toInt)

theorem formatC_fields (hop : opField w = op.toNat) (hz : reservedZero w 0 24 = true) :
    formatC op (chField w) = w := by
  rw [reservedZero_iff] at hz
  obtain ⟨ho, hc, hz'⟩ := field_formatC op (chField w)
  exact word_ext_op _ w 24 (by decide) (by rw [opField, ho, hop]) (hc.trans (by simp [chField]))
    (hz'.trans hz.symm)

theorem formatCB_fields (hop : opField w = op.toNat) (hz : reservedZero w 8 16 = true) :
    formatCB op (chField w) (imm8Field w) = w := by
  rw [reservedZero_iff] at hz
  obtain ⟨ho, hc, hz', hv⟩ := field_formatCB op (chField w) (imm8Field w)
  exact word_ext_op _ w 8 (by decide) (by rw [opField, ho, hop])
    (field_split _ w 8 16 4 (hz'.trans hz.symm) (hc.trans (by simp [chField])))
    (hv.trans (by simp [imm8Field]))

end

/-- The operands a row reads are in their ranges. -/
theorem wellFormed_command (w : Word) : ∀ r ∈ opcodeMap, (r.command w).wellFormed = true := by
  simp [opcodeMap, Instr.wellFormed, imm24Ok_imm24Field, imm8Ok_imm8Field, chOk_chField,
    simm16Ok_simm16Field]

/-- The word of the command a row reads from a word of its opcode with a clear reserved field is that word. -/
theorem encode_command {w : Word} : ∀ {k : Nat} (hk : k < opcodeMap.length), opField w = k →
    reservedClear k w = true → encode (opcodeMap[k].command w) = w
  | 0x0, _, h, hz => formatN_fields (op := 0x0) h hz
  | 0x1, _, h, hz => formatI24_fields (op := 0x1) h hz
  | 0x2, _, h, hz => formatI24_fields (op := 0x2) h hz
  | 0x3, _, h, hz => formatI24_fields (op := 0x3) h hz
  | 0x4, _, h, hz => formatI24_fields (op := 0x4) h hz
  | 0x5, _, h, hz => formatB_fields (op := 0x5) h hz
  | 0x6, _, h, hz => formatCD_fields (op := 0x6) h hz
  | 0x7, _, h, hz => formatCD_fields (op := 0x7) h hz
  | 0x8, _, h, hz => formatC_fields (op := 0x8) h hz
  | 0x9, _, h, hz => formatCB_fields (op := 0x9) h hz
  | 0xA, _, h, hz => formatC_fields (op := 0xA) h hz
  | 0xB, _, h, hz => formatCB_fields (op := 0xB) h hz
  | 0xC, _, h, hz => formatC_fields (op := 0xC) h hz
  | k + 13, hk, _, _ => absurd hk (Nat.not_lt.mpr (Nat.le_add_left 13 k))

/-- Settles O2: a word that decodes is selected by a row, and that row's command has the word. -/
theorem decodedWordReencodes : Obligations.DecodedWordReencodes := by
  intro w i h
  obtain ⟨r, hr, hw, rfl⟩ := selects_of_decode h
  refine ⟨wellFormed_command w r hr, ?_⟩
  obtain ⟨k, hk, rfl⟩ := List.getElem_of_mem hr
  obtain ⟨hop, hz⟩ := (selects_iff w hk).mp hw
  exact encode_command hk hop hz

/-! ### Illegal words (R75 to R77) -/

/-- A word that decodes to nothing raises IllegalCommand and changes nothing else. -/
theorem step_illegal {s : State} {w : Word} {rest : List HostAction} (hd : decode w = none)
    (hp : s.port = .command w :: rest) : step s = .next (State.afterError { s with port := rest } 1) := by
  rw [step_action hp, act, runWord, hd]
  rfl

/-- Settles O3: the decoder is the map, its rows have different opcodes, and a word of no row is illegal. -/
theorem decodeFollowsOpcodeMap : Obligations.DecodeFollowsOpcodeMap := by
  refine ⟨fun w r hr hw => decode_of_selects hr hw, opcodeMap_disjoint, fun w h => ?_⟩
  have hd := decode_eq_none_iff.mpr h
  exact ⟨hd, fun s rest hp => step_illegal hd hp⟩

/-- Settles O4: no row has the opcodes 0xD, 0xE and 0xF. -/
theorem reservedOpcodesAreIllegal : Obligations.ReservedOpcodesAreIllegal := by
  intro w s rest hop hp
  have hge : 0xD ≤ opField w := by
    rcases hop with h | h | h <;> simp [opField, field, h]
  exact step_illegal (decode_reserved hge) hp

theorem reservedMasks_eq : ∀ k (hk : k < reservedMasks.length), reservedMasks[k] = reservedMask k := by
  decide

/-- A word some row selects has 0 in the reserved field of its opcode. -/
theorem reservedMask_of_selects {w : Word} {r : OpcodeRow} (hr : r ∈ opcodeMap) (hw : r.selects w) :
    w &&& reservedMask (opField w) = 0 := by
  obtain ⟨k, hk, rfl⟩ := List.getElem_of_mem hr
  obtain ⟨rfl, hz⟩ := (selects_iff w hk).mp hw
  rw [reservedMask, and_mask_eq_zero _ _ _ ((reservedBits_le _).trans (by decide))]
  exact (reservedZero_iff _ _ _).mp hz

/-- Settles O5: a row selects only words whose reserved field is 0, and the four examples are computed. -/
theorem reservedFieldBitsAreIllegal : Obligations.ReservedFieldBitsAreIllegal := by
  refine ⟨fun w m s rest hm hw => ?_, fun w hw => ?_⟩
  · obtain ⟨hk, rfl⟩ := List.getElem?_eq_some_iff.mp hm
    rw [reservedMasks_eq] at hw
    have hnone : ∀ r ∈ opcodeMap, ¬ r.selects w := fun r hr hs => hw (reservedMask_of_selects hr hs)
    exact ⟨hnone, step_illegal (decode_eq_none_iff.mpr hnone)⟩
  · fin_cases hw <;> exact ⟨_, rfl, by decide⟩

/-- Settles O6: each listed word is decoded by computation. -/
theorem vectorWordsDecode : Obligations.VectorWordsDecode := by
  unfold Obligations.VectorWordsDecode
  decide

/-! ### The pseudo-instructions (R81) -/

theorem execAll_singleton (i : Instr) (s : State) : execAll [i] s = exec i s := by
  rw [execAll]
  cases exec i s <;> rfl

/-- A command that has its effect is followed by the rest. -/
theorem execAll_cons {i : Instr} {s u : State} (h : Effect i s u) (rest : List Instr) :
    execAll (i :: rest) s = execAll rest (succeed u) := by
  rw [execAll, exec_of_effect h]

theorem execAll_encodec (ch src dst len cap : Nat) (s : State) :
    execAll (Pseudo.encodec ch src dst len cap).expand s =
      exec (.denc ch) { s with
        src := BitVec.ofNat 24 src, dst := BitVec.ofNat 24 dst, len := BitVec.ofNat 24 len
        cap := BitVec.ofNat 24 cap, status := ⟨0, s.status.sticky⟩, cmdidx := s.cmdidx + 4 } := by
  rw [Pseudo.expand, execAll_cons (i := .setsrc src) rfl, execAll_cons (i := .setdst dst) rfl,
    execAll_cons (i := .setlen len) rfl, execAll_cons (i := .setcap cap) rfl, execAll_singleton]
  rfl

theorem execAll_decode (ch addr len : Nat) (s : State) :
    execAll (Pseudo.decode ch addr len).expand s =
      exec (.ddec ch) { s with
        src := BitVec.ofNat 24 addr, len := BitVec.ofNat 24 len
        status := ⟨0, s.status.sticky⟩, cmdidx := s.cmdidx + 2 } := by
  rw [Pseudo.expand, execAll_cons (i := .setsrc addr) rfl, execAll_cons (i := .setlen len) rfl,
    execAll_singleton]
  rfl

/-- DENC and DDEC write no operand register (R22). -/
theorem exec_keeps_operands {i : Instr} {s t : State} (hi : ∃ ch, i = .denc ch ∨ i = .ddec ch)
    (hx : exec i s = .next t) : t.src = s.src ∧ t.dst = s.dst ∧ t.len = s.len ∧ t.cap = s.cap := by
  obtain ⟨hsrc, hdst, hlen, hcap, -⟩ := registerFrame i s t hx
  obtain ⟨ch, rfl | rfl⟩ := hi <;> exact ⟨hsrc (by simp), hdst (by simp), hlen (by simp), hcap (by simp)⟩

theorem execAll_encodec_operands {ch src dst len cap : Nat} {s t : State} (hsrc : imm24Ok src = true)
    (hdst : imm24Ok dst = true) (hlen : imm24Ok len = true) (hcap : imm24Ok cap = true)
    (hx : execAll (Pseudo.encodec ch src dst len cap).expand s = .next t) :
    t.src.toNat = src ∧ t.dst.toNat = dst ∧ t.len.toNat = len ∧ t.cap.toNat = cap := by
  rw [execAll_encodec] at hx
  obtain ⟨h1, h2, h3, h4⟩ := exec_keeps_operands ⟨ch, .inl rfl⟩ hx
  rw [h1, h2, h3, h4]
  exact ⟨imm24_toNat hsrc, imm24_toNat hdst, imm24_toNat hlen, imm24_toNat hcap⟩

theorem execAll_decode_operands {ch addr len : Nat} {s t : State} (haddr : imm24Ok addr = true)
    (hlen : imm24Ok len = true) (hx : execAll (Pseudo.decode ch addr len).expand s = .next t) :
    t.src.toNat = addr ∧ t.len.toNat = len := by
  rw [execAll_decode] at hx
  obtain ⟨h1, -, h3, -⟩ := exec_keeps_operands ⟨ch, .inr rfl⟩ hx
  rw [h1, h3]
  exact ⟨imm24_toNat haddr, imm24_toNat hlen⟩

/-- Settles O18: the SET commands of an expansion succeed, and its last command keeps the registers. ENCODE
is ENCODEC with CAP the length. -/
theorem pseudoInstructionsExpand : Obligations.PseudoInstructionsExpand := by
  refine ⟨fun ch src dst len cap s hsrc hdst hlen hcap => ?_, fun ch src dst len s hsrc hdst hlen => ?_,
    fun ch addr len s haddr hlen => ?_, fun ch d s => ?_⟩
  · exact ⟨execAll_encodec .., fun t => execAll_encodec_operands hsrc hdst hlen hcap⟩
  · exact ⟨execAll_encodec .., fun t => execAll_encodec_operands hsrc hdst hlen hlen⟩
  · exact ⟨execAll_decode .., fun t => execAll_decode_operands haddr hlen⟩
  · exact ⟨execAll_singleton .., execAll_singleton ..⟩

end Sys2Proof.Machine
end

section
/-! NOP and the operand-setup commands (40_control.md R100 to R104): the words of format I24 and those a
reserved bit makes illegal, what a SET command writes, and what DENC and DDEC read of the operands. -/

namespace Sys2Proof.Machine

/-! ### The words of NOP and the SET commands (R72, R74) -/

/-- A command of format I24 is what its opcode and its 24-bit immediate decode to. -/
theorem decode_of_formatI24 {i : Instr} {op : BitVec 4} {v : Nat} (he : encode i = formatI24 op v)
    (hi : i.wellFormed = imm24Ok v) (hv : v ≤ 16777215) :
    decode (BitVec.ofNat 32 (op.toNat * 2 ^ 28 + v)) = some i := by
  rw [← formatI24_eq op v hv, ← he]
  exact decodeOfEncodeGivesInstr i (hi.trans (decide_eq_true hv))

theorem field_of_opcode_mask {w : Word} {op : BitVec 4}
    (h : w &&& (0xF0000000 : Word) = op.setWidth 32 <<< 28) : field w 28 4 = op := by
  rwa [opcode_mask, and_mask_eq w 28 4 (by decide) op] at h

/-- A word with a 1 in a bit its opcode's format marks `0` decodes to nothing (R77). -/
theorem decode_none_of_reserved_bit {w m : Word} (op : BitVec 4) (hm : reservedMasks[op.toNat]? = some m)
    (hop : w &&& (0xF0000000 : Word) = op.setWidth 32 <<< 28) (hw : w &&& m ≠ 0) : decode w = none := by
  rw [← field_of_opcode_mask hop] at hm
  obtain ⟨hnone, -⟩ := reservedFieldBitsAreIllegal.1 w m State.reset [] hm hw
  exact decode_eq_none_iff.mpr hnone

/-- Below 2^28 the only command word is 0: the rest of opcode 0x0 is reserved. -/
theorem decode_none_of_low {w : Word} (hne : w ≠ 0) (hle : w.toNat ≤ 0x0FFFFFFF) : decode w = none := by
  have hop : w &&& (0xF0000000 : Word) = (0 : BitVec 4).setWidth 32 <<< 28 := by
    rw [opcode_mask, and_mask_eq w 28 4 (by decide)]
    apply BitVec.eq_of_toNat_eq
    simp [field, Nat.shiftRight_eq_div_pow]
    omega
  refine decode_none_of_reserved_bit 0 rfl hop fun hz => hne ?_
  have hlow : (w &&& 0x0FFFFFFF).toNat = w.toNat := by
    rw [BitVec.toNat_and]
    exact (Nat.and_two_pow_sub_one_eq_mod w.toNat 28).trans (Nat.mod_eq_of_lt (by omega))
  exact BitVec.eq_of_toNat_eq (by rw [← hlow, hz])

/-! ### What DENC and DDEC read of the operands (R52) -/

/-- Storing the channel that is there changes nothing. -/
theorem setChannel_self {s : State} {ch : Nat} {c : Channel} (h : s.channels[ch]? = some c) :
    s.setChannel ch c = s := by
  obtain ⟨hlt, rfl⟩ := List.getElem?_eq_some_iff.mp h
  rw [State.setChannel, List.set_getElem_self]

/-- An empty chunk is in range wherever it starts (R55). -/
theorem not_outOfRange_of_len_zero {s : State} (b : Addr) {n : Addr} (h : n = 0) : ¬ outOfRange s b n :=
  fun hr => absurd hr.1 (by simp [h])

section
variable {s : State} {ch : Nat} {c : Channel} (hlen : s.len = 0)
include hlen

theorem effect_denc_of_len_zero (hc : HasData s ch .encoder c) : Effect (.denc ch) s s := by
  refine ⟨c, hc, by simp [hlen], not_outOfRange_of_len_zero _ hlen, not_outOfRange_of_len_zero _ hlen, ?_⟩
  have hn : s.len.toNat = 0 := by rw [hlen]; rfl
  rw [hn, runChunk_zero, setChannel_self hc.1]

theorem effect_ddec_of_len_zero (hc : HasData s ch .decoder c) : Effect (.ddec ch) s s := by
  refine ⟨c, hc, not_outOfRange_of_len_zero _ hlen, ?_⟩
  have hn : s.len.toNat = 0 := by rw [hlen]; rfl
  rw [hn, runChunk_zero, setChannel_self hc.1]

end

/-- DDEC reads neither DST nor CAP (R102, R104). -/
theorem effect_ddec_dst_cap {ch : Nat} {s u : State} (d v : Addr) (he : Effect (.ddec ch) s u) :
    Effect (.ddec ch) { s with dst := d, cap := v } { u with dst := d, cap := v } := by
  obtain ⟨c, hc, hsrc, rfl⟩ := he
  exact ⟨c, hc, hsrc, rfl⟩

theorem exec_ddec_dst_cap {ch : Nat} {s t : State} (d v : Addr) (hx : exec (.ddec ch) s = .next t) :
    exec (.ddec ch) { s with dst := d, cap := v } = .next { t with dst := d, cap := v } := by
  rcases exec_cases.mp hx with ⟨u, he, rfl⟩ | ⟨e, he, rfl⟩
  · exact exec_of_effect (effect_ddec_dst_cap d v he)
  · exact exec_of_error (i := .ddec ch) (ddecBody_error.mpr ((ddecBody_error (s := s)).mp he))

/-! ### STATUS as the host reads it (R24) -/

/-- Bit 8 is the only bit of STATUS above LAST's four. -/
theorem sticky_iff_word (st : Status) : st.sticky = true ↔ 0x100 ≤ st.word.toNat := by
  have hlast := st.last.isLt
  rw [status_word_toNat]
  cases st.sticky with
  | true => simp
  | false => simp; omega

/-! ### The commands -/

/-- Settles O13: NOP's effect is the state itself, and 0x103 is STATUS with LAST 3 and STICKY 1. -/
theorem nopReportsSuccess : Obligations.NopReportsSuccess := by
  refine ⟨rfl, fun w => decode_none_of_low, fun s => exec_of_effect (i := .nop) rfl, fun s t hs hx => ?_⟩
  have hsticky : s.status.sticky = true := (sticky_iff_word s.status).mpr (by rw [hs]; decide)
  rw [exec_of_effect (i := .nop) rfl] at hx
  cases hx
  rw [succeed_status, hsticky]
  rfl

/-- Settles O14: the effect of SETSRC is its one write. -/
theorem setsrcLoadsSrc : Obligations.SetsrcLoadsSrc := by
  refine ⟨fun v => decode_of_formatI24 (i := .setsrc v) (op := 0x1) rfl rfl,
    fun w => decode_none_of_reserved_bit 0x1 rfl, fun v s hv => ?_⟩
  exact ⟨_, exec_of_effect (i := .setsrc v) rfl, imm24_toNat (decide_eq_true hv), rfl⟩

/-- Settles O15: the effect of SETDST is its one write, and DDEC does not read DST. -/
theorem setdstLoadsDst : Obligations.SetdstLoadsDst := by
  refine ⟨fun v => decode_of_formatI24 (i := .setdst v) (op := 0x2) rfl rfl,
    fun w => decode_none_of_reserved_bit 0x2 rfl, fun v s hv => ?_, fun ch d s t hx => ?_⟩
  · exact ⟨_, exec_of_effect (i := .setdst v) rfl, imm24_toNat (decide_eq_true hv), rfl⟩
  · obtain ⟨-, -, -, hcap⟩ := exec_keeps_operands ⟨ch, .inr rfl⟩ hx
    rw [hcap]
    exact exec_ddec_dst_cap d s.cap hx

/-- Settles O16: the effect of SETLEN is its one write, and an empty chunk has no effect. -/
theorem setlenLoadsLen : Obligations.SetlenLoadsLen := by
  refine ⟨fun v => decode_of_formatI24 (i := .setlen v) (op := 0x3) rfl rfl,
    fun w => decode_none_of_reserved_bit 0x3 rfl, fun v s hv => ?_, fun ch c s hlen hc hv => ⟨?_, ?_⟩⟩
  · exact ⟨_, exec_of_effect (i := .setlen v) rfl, imm24_toNat (decide_eq_true hv), rfl⟩
  · exact fun hd => exec_of_effect (effect_denc_of_len_zero hlen ⟨hc, hv, hd⟩)
  · exact fun hd => exec_of_effect (effect_ddec_of_len_zero hlen ⟨hc, hv, hd⟩)

/-- Settles O17: the effect of SETCAP is its one write, DENC checks CAP first and writes inside its chunk,
and DDEC does not read CAP. -/
theorem setcapLoadsCap : Obligations.SetcapLoadsCap := by
  refine ⟨fun v => decode_of_formatI24 (i := .setcap v) (op := 0x4) rfl rfl,
    fun w => decode_none_of_reserved_bit 0x4 rfl, fun v s hv => ?_, fun ch c s hc hv hd hlt => ?_,
    fun ch s t hx a ha => ?_, fun ch v s t hx => ?_⟩
  · exact ⟨_, exec_of_effect (i := .setcap v) rfl, imm24_toNat (decide_eq_true hv), rfl⟩
  · exact exec_of_error (i := .denc ch) (dencBody_error.mpr (.inr ⟨c, ⟨hc, hv, hd⟩, .inl ⟨hlt, rfl⟩⟩))
  · obtain ⟨-, hframe⟩ := memoryFrame (.denc ch) s t hx
    exact hframe a (fun _ => ha) (fun ⟨_, h⟩ => nomatch h)
  · obtain ⟨-, hdst, -, -⟩ := exec_keeps_operands ⟨ch, .inr rfl⟩ hx
    rw [hdst]
    exact exec_ddec_dst_cap s.dst v hx

end Sys2Proof.Machine
end

section
/-! The CRC table (41_crc_table.md): it is what the generator of R120 gives, the generator is linear and
injective (R122), and CRCL reads it (R124). -/

namespace Sys2Proof.Machine

/-! ### One round and `n` rounds of the generator (R120) -/

theorem getLsbD_zero_iff_mod_two (r : Word) : r.getLsbD 0 = true ↔ r % 2 = 1 := by
  rw [BitVec.getLsbD, Nat.testBit_zero, decide_eq_true_iff, ← BitVec.toNat_inj]
  rfl

/-- A round in the words of R120: the remainder by two says whether bit 0 was 1. -/
theorem crcRound_eq (r : Word) :
    crcRound r = if r % 2 = 1 then (r >>> 1) ^^^ 0xEDB88320 else r >>> 1 := by
  simp only [crcRound, getLsbD_zero_iff_mod_two]
  rfl

/-- `crcRounds` runs its first round first; it may as well run the last one last. -/
theorem crcRounds_succ (n : Nat) (r : Word) : crcRounds (n + 1) r = crcRound (crcRounds n r) := by
  induction n generalizing r with
  | zero => rfl
  | succ n ih => exact ih (crcRound r)

/-- What a round adds to the shifted word, for the bit 0 it had. -/
def crcFeedback (bit : Bool) : Word := if bit then Config.crcPoly else 0

/-- The polynomial cancels where both words have bit 0 set. -/
theorem crcFeedback_xor (x y : Bool) : crcFeedback (x ^^ y) = crcFeedback x ^^^ crcFeedback y := by
  cases x <;> cases y <;> decide

theorem crcRound_eq_xor (r : Word) : crcRound r = (r >>> 1) ^^^ crcFeedback (r.getLsbD 0) := by
  unfold crcRound crcFeedback
  split
  · rfl
  · exact BitVec.xor_zero.symm

theorem crcRound_xor (a b : Word) : crcRound (a ^^^ b) = crcRound a ^^^ crcRound b := by
  simp only [crcRound_eq_xor, BitVec.getLsbD_xor, BitVec.ushiftRight_xor_distrib, crcFeedback_xor]
  ac_rfl

theorem crcRounds_xor (n : Nat) (a b : Word) :
    crcRounds n (a ^^^ b) = crcRounds n a ^^^ crcRounds n b := by
  induction n generalizing a b with
  | zero => rfl
  | succ n ih => rw [crcRounds, crcRound_xor, ih]; rfl

/-- Only 0 gives 0: after an exclusive-or with the polynomial bit 31 is 1, and a word whose bit 0 and
whose other bits are 0 is 0. -/
theorem eq_zero_of_crcRound {r : Word} (h : crcRound r = 0) : r = 0 := by
  unfold crcRound at h
  split at h
  · have hbit := congrArg (fun x => x.getLsbD 31) h
    simp [Config.crcPoly] at hbit
  · next h0 =>
    apply BitVec.eq_of_getLsbD_eq
    intro i hi
    cases i with
    | zero => simpa using h0
    | succ i =>
      have hbit := congrArg (fun x => x.getLsbD i) h
      simpa [Nat.add_comm] using hbit

theorem crcRound_injective : Function.Injective crcRound := by
  intro a b h
  rw [← BitVec.xor_eq_zero_iff] at h ⊢
  exact eq_zero_of_crcRound ((crcRound_xor a b).trans h)

theorem crcRounds_injective (n : Nat) : Function.Injective (crcRounds n) := by
  induction n with
  | zero => exact Function.injective_id
  | succ n ih => exact ih.comp crcRound_injective

/-! ### The table is what the generator gives (R120, R121) -/

theorem crcTable_eq : crcTable = (List.range 256).map fun n => crcGenerate (BitVec.ofNat 8 n) := by
  decide +kernel

theorem crcTable_length : crcTable.length = 256 := by
  rw [crcTable_eq, List.length_map, List.length_range]

theorem crcLookup_eq_crcGenerate (i : Byte) : crcLookup i = crcGenerate i := by
  have hi : i.toNat < 256 := i.isLt
  simp [crcLookup, crcTable_eq, hi]

theorem crcLookup_xor (a b : Byte) : crcLookup (a ^^^ b) = crcLookup a ^^^ crcLookup b := by
  simp only [crcLookup_eq_crcGenerate, crcGenerate, BitVec.setWidth_xor, crcRounds_xor]

theorem crcLookup_injective : Function.Injective crcLookup := by
  intro a b h
  rw [crcLookup_eq_crcGenerate, crcLookup_eq_crcGenerate] at h
  have hword : a.setWidth 32 = b.setWidth 32 := crcRounds_injective _ h
  simpa using congrArg (BitVec.setWidth 8) hword

/-- Settles O20: the single entries and the rounds of index 1 are computed; linearity and distinctness are
the generator's. -/
theorem crcTableProperties : Obligations.CrcTableProperties :=
  ⟨by decide, by decide, by decide, by decide, by decide, crcLookup_xor, by decide,
    fun _ _ h => crcLookup_injective h⟩

/-- Settles O19: the value before round `j` is that of `j` rounds from the index. -/
theorem crcTableFollowsAlgorithm : Obligations.CrcTableFollowsAlgorithm := by
  refine ⟨crcTable_length, fun i => ⟨fun j => crcRounds j (i.setWidth 32), rfl, fun j _ => ?_, ?_⟩⟩
  · exact (crcRounds_succ j _).trans (crcRound_eq _)
  · exact crcLookup_eq_crcGenerate i

/-! ### CRCL (R124) -/

/-- CRCL is what its opcode and its 8-bit immediate decode to. -/
theorem decode_crcl {v : Nat} (hv : v ≤ 255) :
    decode (BitVec.ofNat 32 (0x50000000 + v)) = some (.crcl v) := by
  have he : encode (.crcl v) = BitVec.ofNat 32 (0x50000000 + v) := formatB_eq 0x5 v hv
  rw [← he]
  exact decodeOfEncodeGivesInstr (.crcl v) (decide_eq_true hv)

theorem exec_crcl (i : Byte) (s : State) :
    exec (.crcl i.toNat) s = .next (succeed { s with res := crcLookup i }) :=
  exec_of_effect (by simp [Effect])

/-- Settles O21: the effect of CRCL is its one write, and the entry at 1 is one of those of R122. -/
theorem crclReadsTable : Obligations.CrclReadsTable := by
  refine ⟨fun v => decode_crcl, fun w => decode_none_of_reserved_bit 0x5 rfl, exec_crcl, fun s t hx => ?_⟩
  obtain ⟨-, -, h1, -⟩ := crcTableProperties
  rw [show (0x01 : Nat) = (0x01 : Byte).toNat from rfl, exec_crcl] at hx
  cases hx
  exact h1

end Sys2Proof.Machine
end

section
/-! Construction and release of a delta filter instance (42_delta_config.md): DINITE and DINITD are one
construction with two directions (R140 to R143), and a released channel answers no data command (R144). -/

namespace Sys2Proof.Machine

/-! ### A command that failed (R203) -/

/-- A command whose LAST is not 0 has raised an error, and written nothing but STATUS and cmdidx. -/
theorem error_of_failure {i : Instr} {s t : State} (h : exec i s = .next t) (h0 : t.status.last ≠ 0) :
    ∃ e, body i s = .error e ∧ t = raiseError e s := by
  rcases exec_cases.mp h with ⟨u, -, rfl⟩ | he
  · exact absurd rfl h0
  · exact he

/-! ### The two constructions as one command (R141, R142) -/

/-- The command that constructs an instance of the direction `dir`. -/
def construction (dir : Dir) (ch : Nat) (d : Int) : Instr :=
  match dir with
  | .encoder => .dinite ch d
  | .decoder => .dinitd ch d

/-- Its opcode (R74). -/
def constructionOp : Dir → BitVec 4
  | .encoder => 0x6
  | .decoder => 0x7

theorem encode_construction (dir : Dir) (ch : Nat) (d : Int) :
    encode (construction dir ch d) = formatCD (constructionOp dir) ch d := by cases dir <;> rfl

theorem wellFormed_construction (dir : Dir) (ch : Nat) (d : Int) :
    (construction dir ch d).wellFormed = (chOk ch && simm16Ok d) := by cases dir <;> rfl

theorem body_construction (dir : Dir) (ch : Nat) (d : Int) (s : State) :
    body (construction dir ch d) s = constructBody dir ch d s := by cases dir <;> rfl

theorem effect_construction {dir : Dir} {ch : Nat} {d : Int} {s u : State} :
    Effect (construction dir ch d) s u ↔
      ch < s.nch ∧ (1 ≤ d ∧ d ≤ 256) ∧ u = s.setChannel ch (Channel.construct dir (BitVec.ofInt 9 d)) := by
  rw [← body_ok, body_construction, constructBody_ok]

/-- A construction is what its opcode, its channel and its signed distance decode to. -/
theorem decode_construction (dir : Dir) {ch : Nat} {d : Int} (hch : ch ≤ 15) (hlo : -32768 ≤ d)
    (hhi : d ≤ 32767) :
    decode (BitVec.ofNat 32 ((constructionOp dir).toNat * 2 ^ 28 + ch * 2 ^ 24 + (d % 65536).toNat)) =
      some (construction dir ch d) := by
  rw [← formatCD_eq _ ch d hch, ← encode_construction]
  apply decodeOfEncodeGivesInstr
  simp [wellFormed_construction, chOk, simm16Ok, hch, hlo, hhi]

/-! ### What a construction does (R140 to R143) -/

/-- The channel check comes before the distance check (R201). -/
theorem exec_construction_invalidChannel (dir : Dir) {s : State} {ch : Nat} (d : Int) (h : s.nch ≤ ch) :
    exec (construction dir ch d) s = .next (s.afterError 2) := by
  apply exec_of_error (e := .invalidChannel)
  rw [body_construction]
  exact constructBody_error.mpr (.inl ⟨h, rfl⟩)

theorem exec_construction_invalidDistance (dir : Dir) {s : State} {ch : Nat} {d : Int} (h : ch < s.nch)
    (hd : d ≤ 0 ∨ d > 256) : exec (construction dir ch d) s = .next (s.afterError 3) := by
  apply exec_of_error (e := .invalidDistance)
  rw [body_construction]
  exact constructBody_error.mpr (.inr ⟨h, by omega, rfl⟩)

theorem exec_construction_succeeds (dir : Dir) {s : State} {ch d : Nat} (h : ch < s.nch) (h1 : 1 ≤ d)
    (h256 : d ≤ 256) :
    exec (construction dir ch d) s =
      .next (s.setChannel ch (Channel.construct dir (BitVec.ofNat 9 d))).afterSuccess := by
  rw [← BitVec.ofInt_natCast]
  exact exec_of_effect (effect_construction.mpr ⟨h, by omega, rfl⟩)

/-! ### The obligations on constructions -/

/-- Settles O22: DINITE is the construction of an encoder. -/
theorem diniteBuildsEncoder : Obligations.DiniteBuildsEncoder :=
  ⟨fun _ _ => decode_construction .encoder, fun _ => decode_none_of_reserved_bit 0x6 rfl,
    fun _ _ d => exec_construction_invalidChannel .encoder d,
    fun _ _ _ => exec_construction_invalidDistance .encoder, fun _ _ _ => exec_construction_succeeds .encoder⟩

/-- Settles O23: DINITD is the construction of a decoder. -/
theorem dinitdBuildsDecoder : Obligations.DinitdBuildsDecoder :=
  ⟨fun _ _ => decode_construction .decoder, fun _ => decode_none_of_reserved_bit 0x7 rfl,
    fun _ _ d => exec_construction_invalidChannel .decoder d,
    fun _ _ _ => exec_construction_invalidDistance .decoder, fun _ _ _ => exec_construction_succeeds .decoder⟩

/-- Settles O24: a success has had the effect of the construction, and an error writes no channel. -/
theorem constructionReplacesOrKeeps : Obligations.ConstructionReplacesOrKeeps := by
  intro s t ch d dir i hi hx
  obtain rfl : i = construction dir ch d := hi
  refine ⟨fun h0 => ?_, fun h0 => ?_⟩
  · obtain ⟨u, he, rfl⟩ := effect_of_success hx h0
    obtain ⟨hlt, -, rfl⟩ := effect_construction.mp he
    exact List.getElem?_set_self hlt
  · obtain ⟨e, -, rfl⟩ := error_of_failure hx h0
    exact raiseError_channels e s

/-! ### DREL (R144) -/

theorem decode_drel {ch : Nat} (hch : ch ≤ 15) :
    decode (BitVec.ofNat 32 (0x80000000 + ch * 2 ^ 24)) = some (.drel ch) := by
  have he : encode (.drel ch) = BitVec.ofNat 32 (0x80000000 + ch * 2 ^ 24) := formatC_eq 0x8 ch hch
  rw [← he]
  exact decodeOfEncodeGivesInstr (.drel ch) (decide_eq_true hch)

/-- A data command on a channel with VALID 0 raises Unconfigured (R26). -/
theorem exec_data_unconfigured {i : Instr} {s : State} {ch : Nat} {dir : Dir} {c : Channel}
    (hd : dataDir i = some (ch, dir)) (hc : s.channels[ch]? = some c) (hv : c.valid = false) :
    exec i s = .next (s.afterError 4) :=
  exec_of_dataChannel_error (e := .unconfigured) hd (dataChannel_error.mpr (.inr ⟨c, hc, .inl ⟨hv, rfl⟩⟩))

/-- Settles O25: the effect of DREL is the empty channel, whose VALID is 0. -/
theorem drelClearsChannel : Obligations.DrelClearsChannel := by
  refine ⟨fun ch => decode_drel, fun w => decode_none_of_reserved_bit 0x8 rfl, fun s ch h => ?_,
    fun s ch h => ⟨_, exec_of_effect (i := .drel ch) ⟨h, rfl⟩, rfl, fun u i dir hd hu => ?_⟩⟩
  · exact exec_of_error (i := .drel ch) (releaseBody_error.mpr ⟨h, rfl⟩)
  · have hempty : u.channels[ch]? = some Channel.empty := hu.trans (List.getElem?_set_self h)
    exact exec_data_unconfigured hd hempty rfl

end Sys2Proof.Machine
end

section
/-! Runs of one channel as streams of byte steps (20_memory.md R61; 43_delta_encoder.md R160 to R162;
44_delta_decoder.md R180 to R182): every data command that succeeds, and so every run of an encoder or a
decoder, is one `stream` of its byte steps, and what a stream gives does not depend on its split. -/

namespace Sys2Proof.Machine

/-! ### A chunk as a stream -/

/-- The byte that byte step `i` of a chunk reads (R61). -/
def chunkInput (f : Channel → Byte → Channel × Byte) (a b : Nat) (cm : Channel × Memory) (i : Nat) :
    Byte :=
  (runChunk f i a b cm).2.read (a + i)

section
variable (f : Channel → Byte → Channel × Byte) (a b : Nat) (cm : Channel × Memory)

/-- Byte step `i` of a chunk, from the channel the steps before it left. -/
theorem chunk_step {i n : Nat} (hi : i < n) :
    f (runChunk f i a b cm).1 (chunkInput f a b cm i) =
      ((runChunk f (i + 1) a b cm).1, (runChunk f n a b cm).2.read (b + i)) := by
  rw [runChunk_last, runChunk_read_written f n a b cm i hi, chunkInput]

/-- A chunk is the stream of the bytes it reads, and it leaves what the stream gives. -/
theorem runChunk_stream (n : Nat) :
    stream f cm.1 ((List.range n).map (chunkInput f a b cm)) =
      ((runChunk f n a b cm).1, (runChunk f n a b cm).2.bytes b n) :=
  stream_of_steps f (fun i => (runChunk f i a b cm).1) _ _ n fun _ hi => chunk_step f a b cm hi

end

/-! ### Data commands as streams -/

/-- From `s` to `t` channel `c` went through the byte steps `f` of the bytes `xs`, which gave `ys`. -/
def Streams (f : Channel → Byte → Channel × Byte) (c : Nat) (s : State) (xs ys : List Byte) (t : State) :
    Prop :=
  ∀ h, s.channels[c]? = some h → ∃ k, t.channels[c]? = some k ∧ stream f h xs = (k, ys)

theorem Streams.append {f : Channel → Byte → Channel × Byte} {c : Nat} {s t u : State}
    {xs ys xs' ys' : List Byte} (h₁ : Streams f c s xs ys t) (h₂ : Streams f c t xs' ys' u) :
    Streams f c s (xs ++ xs') (ys ++ ys') u := by
  intro h hc
  obtain ⟨k, ht, hk⟩ := h₁ h hc
  obtain ⟨k', hu, hk'⟩ := h₂ k ht
  exact ⟨k', hu, by rw [stream_append, hk, hk']⟩

/-- A command that succeeded and made `k` of the channel of its data check. -/
theorem streams_of_set {f : Channel → Byte → Channel × Byte} {s u : State} {ch : Nat} {dir : Dir}
    {c k : Channel} {xs ys : List Byte} (hc : HasData s ch dir c) (hu : u.channels = s.channels.set ch k)
    (hk : stream f c xs = (k, ys)) : Streams f ch s xs ys (succeed u) := by
  intro h hh
  obtain rfl : c = h := Option.some.inj (hc.1.symm.trans hh)
  have hlt := (List.getElem?_eq_some_iff.mp hh).1
  exact ⟨k, by rw [succeed_channels, hu, List.getElem?_set_self hlt], hk⟩

section
variable {s t : State} {ch : Nat}

theorem exec_dencb_streams {x : Byte} (hx : exec (.dencb ch x.toNat) s = .next t)
    (h0 : t.status.last = 0) : Streams encStep ch s [x] [t.res.setWidth 8] t := by
  obtain ⟨u, ⟨c, hc, rfl⟩, rfl⟩ := effect_of_success hx h0
  exact streams_of_set hc rfl (by simp [stream])

theorem exec_ddecb_streams {y : Byte} (hx : exec (.ddecb ch y.toNat) s = .next t)
    (h0 : t.status.last = 0) : Streams decStep ch s [y] [t.res.setWidth 8] t := by
  obtain ⟨u, ⟨c, hc, rfl⟩, rfl⟩ := effect_of_success hx h0
  exact streams_of_set hc rfl (by simp [stream])

/-- The bytes a DENC encodes are those `dencReads` says it reads (R165). -/
theorem exec_denc_streams (hx : exec (.denc ch) s = .next t) (h0 : t.status.last = 0) :
    Streams encStep ch s (dencReads s t) (t.dmem.bytes s.dst.toNat s.len.toNat) t := by
  obtain ⟨u, ⟨c, hc, -, -, -, rfl⟩, rfl⟩ := effect_of_success hx h0
  refine streams_of_set hc rfl
    ((congrArg (stream encStep c) ?_).trans (runChunk_stream encStep _ _ (c, s.dmem) _))
  exact List.map_congr_left fun i hi =>
    (runChunk_read_source encStep (List.mem_range.mp hi) s.src.toNat s.dst.toNat c s.dmem).symm

/-- A DDEC reads each byte before it writes there: it decodes what DMEM held at the start (R186). -/
theorem exec_ddec_streams (hx : exec (.ddec ch) s = .next t) (h0 : t.status.last = 0) :
    Streams decStep ch s (s.dmem.bytes s.src.toNat s.len.toNat) (t.dmem.bytes s.src.toNat s.len.toNat) t := by
  obtain ⟨u, ⟨c, hc, -, rfl⟩, rfl⟩ := effect_of_success hx h0
  refine streams_of_set hc rfl
    ((congrArg (stream decStep c) ?_).trans (runChunk_stream decStep _ _ (c, s.dmem) _))
  exact List.map_congr_left fun i _ =>
    (runChunk_read_outside decStep i s.src.toNat s.src.toNat _ (c, s.dmem) (.inr le_rfl)).symm

end

/-! ### Runs as streams -/

theorem encRun_streams {c : Nat} {s u : State} {xs ys : List Byte} (hr : EncRun c s xs ys u) :
    Streams encStep c s xs ys u := by
  induction hr with
  | done s => exact fun h hc => ⟨h, hc, rfl⟩
  | other hsame _ ih => exact fun h hc => ih h (hsame.trans hc)
  | byte x hx h0 _ ih => exact (exec_dencb_streams hx h0).append ih
  | chunk hx h0 _ ih => exact (exec_denc_streams hx h0).append ih

theorem decRun_streams {c : Nat} {s u : State} {ys xs : List Byte} (hr : DecRun c s ys xs u) :
    Streams decStep c s ys xs u := by
  induction hr with
  | done s => exact fun h hc => ⟨h, hc, rfl⟩
  | other hsame _ ih => exact fun h hc => ih h (hsame.trans hc)
  | byte y hx h0 _ ih => exact (exec_ddecb_streams hx h0).append ih
  | chunk hx h0 _ ih => exact (exec_ddec_streams hx h0).append ih

/-! ### What a stream gives -/

theorem stream_length (f : Channel → Byte → Channel × Byte) (h : Channel) (xs : List Byte) :
    (stream f h xs).2.length = xs.length := by
  induction xs generalizing h with
  | nil => rfl
  | cons x xs ih => simp [stream, ih]

/-- Byte `k` of what a stream gives is what the byte step after the first `k` bytes gives. -/
theorem stream_getD (f : Channel → Byte → Channel × Byte) (h : Channel) {xs : List Byte} {k : Nat}
    (hk : k < xs.length) :
    (stream f h xs).2.getD k 0 = (f (stream f h (xs.take k)).1 (xs.getD k 0)).2 := by
  induction xs generalizing h k with
  | nil => exact absurd hk (Nat.not_lt_zero k)
  | cons x xs ih =>
    cases k with
    | zero => rfl
    | succ k => exact ih _ (Nat.lt_of_succ_lt_succ hk)

/-- An encoder stores the bytes fed to it. -/
theorem stream_encStep_channel (h : Channel) (xs : List Byte) :
    (stream encStep h xs).1 = h.storeAll xs := by
  induction xs generalizing h with
  | nil => rfl
  | cons x xs ih => exact ih (h.store x)

/-- The bytes before byte `k` hold all that is `d` places back from it. -/
theorem lagged_take (xs : List Byte) {d : Nat} (hd : 1 ≤ d) (k : Nat) :
    lagged (xs.take k) d k = lagged xs d k := by
  unfold lagged
  split
  · rw [List.getD_eq_getElem?_getD, List.getD_eq_getElem?_getD, List.getElem?_take_of_lt (by omega)]
  · rfl

/-- A fresh encoder with distance `d` gives `x_k - x_{k-d}` (R161). -/
theorem stream_encStep_getD {h : Channel} {d : Nat} (H : Holds h d []) (h1 : 1 ≤ d) (h256 : d ≤ 256)
    {xs : List Byte} {k : Nat} (hk : k < xs.length) :
    (stream encStep h xs).2.getD k 0 = xs.getD k 0 - lagged xs d k := by
  have hlen : (xs.take k).length = k := List.length_take_of_le hk.le
  have hback : (h.storeAll (xs.take k)).lookback = lagged (xs.take k) d (xs.take k).length :=
    lookback_of_holds (holds_storeAll H (xs.take k)) h1 h256
  rw [stream_getD encStep h hk, encStep_snd, stream_encStep_channel, hback, hlen, lagged_take xs h1]

/-- The same channel with another direction. No byte step reads DIR. -/
def Channel.withDir (h : Channel) (dir : Dir) : Channel := { h with dir := dir }

theorem decStep_withDir (h : Channel) (dir : Dir) (y : Byte) :
    decStep (h.withDir dir) y = ((decStep h y).1.withDir dir, (decStep h y).2) := rfl

/-- Decoding what an encoder gave, on a channel that differs in DIR alone, gives back the bytes fed to the
encoder, and the two channels still differ in DIR alone (R182). -/
theorem stream_decStep_encStep (h : Channel) (dir : Dir) (xs : List Byte) :
    stream decStep (h.withDir dir) (stream encStep h xs).2 = ((stream encStep h xs).1.withDir dir, xs) := by
  induction xs generalizing h with
  | nil => rfl
  | cons x xs ih => simp only [stream, decStep_withDir, decStep_encStep, ih]

/-! ### The obligations on runs -/

/-- Settles O33: a run is a stream on a channel that holds nothing, and the lookback byte of its first `d`
steps is 0. -/
theorem encoderClosedForm : Obligations.EncoderClosedForm := by
  rintro c d s u xs ys ⟨h1, h256, hc⟩ hr
  obtain ⟨k, -, hk⟩ := encRun_streams hr _ hc
  obtain rfl := congrArg Prod.snd hk
  have hform := fun k => stream_encStep_getD (holds_fresh .encoder d) h1 h256 (xs := xs) (k := k)
  refine ⟨stream_length _ _ _, hform, fun k hk hkd => ?_⟩
  rw [hform k hk, lagged, if_neg (Nat.not_le.mpr hkd)]
  exact BitVec.sub_zero _

/-- Settles O34: both runs are the stream of the same bytes on the same channel. -/
theorem encoderSplitInvariance : Obligations.EncoderSplitInvariance := by
  rintro c₁ c₂ d s₁ s₂ u₁ u₂ xs ys₁ ys₂ ⟨-, -, hc₁⟩ ⟨-, -, hc₂⟩ hr₁ hr₂
  obtain ⟨k₁, hu₁, hk₁⟩ := encRun_streams hr₁ _ hc₁
  obtain ⟨k₂, hu₂, hk₂⟩ := encRun_streams hr₂ _ hc₂
  obtain ⟨rfl, rfl⟩ := Prod.mk.inj (hk₁.symm.trans hk₂)
  exact ⟨rfl, k₁, k₁, hu₁, hu₂, rfl, rfl⟩

/-- Settles O41: both runs are streams, on two fresh channels that differ in DIR alone. -/
theorem decoderInvertsEncoder : Obligations.DecoderInvertsEncoder := by
  rintro e c d s₁ s₂ u₁ u₂ xs ys zs ⟨-, -, hc₁⟩ ⟨-, -, hc₂⟩ hr₁ hr₂
  obtain ⟨k₁, hu₁, hk₁⟩ := encRun_streams hr₁ _ hc₁
  obtain ⟨k₂, hu₂, hk₂⟩ := decRun_streams hr₂ _ hc₂
  have hinv :=
    stream_decStep_encStep ⟨true, .encoder, BitVec.ofNat 9 d, 0, Vector.replicate 256 0⟩ .decoder xs
  rw [hk₁] at hinv
  obtain ⟨rfl, rfl⟩ := Prod.mk.inj (hk₂.symm.trans hinv)
  exact ⟨rfl, k₁, _, hu₁, hu₂, rfl, rfl⟩

end Sys2Proof.Machine
end

section
/-! The delta encoder (43_delta_encoder.md): its byte step (R160), DENCB (R163), and DENC with its checks in
order, its byte steps and its overlapping chunks (R164 to R166). -/

namespace Sys2Proof.Machine

/-! ### The channel checks of a data command (R201 orders 2, 4 and 5) -/

section
variable {i : Instr} {s : State} {ch : Nat} {dir : Dir} (hd : dataDir i = some (ch, dir))
include hd

theorem exec_data_invalidChannel (h : s.nch ≤ ch) : exec i s = .next (s.afterError 2) :=
  exec_of_dataChannel_error (e := .invalidChannel) hd (dataChannel_error.mpr (.inl ⟨h, rfl⟩))

theorem exec_data_wrongDirection {c : Channel} (hc : s.channels[ch]? = some c) (hv : c.valid = true)
    (hdir : c.dir ≠ dir) : exec i s = .next (s.afterError 5) :=
  exec_of_dataChannel_error (e := .wrongDirection) hd
    (dataChannel_error.mpr (.inr ⟨c, hc, .inr ⟨hv, hdir, rfl⟩⟩))

theorem namedChannel_of_dataDir : namedChannel i = some ch := by
  cases i <;> simp_all [dataDir, namedChannel]

/-- Distance is no check of a data command. -/
theorem not_distance_row_of_dataDir :
    ¬ ∃ k d, (i = .dinite k d ∨ i = .dinitd k d) ∧ ¬ (1 ≤ d ∧ d ≤ 256) := by
  rintro ⟨k, d, rfl | rfl, -⟩ <;> simp [dataDir] at hd

theorem not_channel_row_of_lt (hlt : ch < s.nch) : ¬ ∃ k, namedChannel i = some k ∧ s.nch ≤ k := by
  rintro ⟨k, hk, hle⟩
  obtain rfl := Option.some.inj ((namedChannel_of_dataDir hd).symm.trans hk)
  omega

theorem not_valid_row_of_valid {c : Channel} (hc : s.channels[ch]? = some c) (hv : c.valid = true) :
    ¬ ∃ k dir c, dataDir i = some (k, dir) ∧ s.channels[k]? = some c ∧ c.valid = false := by
  rintro ⟨k, dir', c', hd', hc', hv'⟩
  obtain ⟨rfl, rfl⟩ := Prod.mk.inj (Option.some.inj (hd.symm.trans hd'))
  obtain rfl := Option.some.inj (hc.symm.trans hc')
  simp_all

theorem not_dir_row_of_dir {c : Channel} (hc : s.channels[ch]? = some c) (hdir : c.dir = dir) :
    ¬ ∃ k dir c, dataDir i = some (k, dir) ∧ s.channels[k]? = some c ∧ c.dir ≠ dir := by
  rintro ⟨k, dir', c', hd', hc', hne⟩
  obtain ⟨rfl, rfl⟩ := Prod.mk.inj (Option.some.inj (hd.symm.trans hd'))
  obtain rfl := Option.some.inj (hc.symm.trans hc')
  exact hne hdir

/-- The error a data command's channel check raises is that of the first row of R201 that fails. -/
theorem firstCode_of_dataChannel_error {e : ErrorCode} (he : dataChannel ch dir s = .error e) :
    firstCode (failedChecks i s) e.code := by
  rcases dataChannel_error.mp he with ⟨hle, rfl⟩ | ⟨c, hc, hfail⟩
  · exact .inl ⟨⟨ch, namedChannel_of_dataDir hd, hle⟩, rfl⟩
  have hlt : ch < s.nch := (List.getElem?_eq_some_iff.mp hc).1
  refine .inr ⟨not_channel_row_of_lt hd hlt, .inr ⟨not_distance_row_of_dataDir hd, ?_⟩⟩
  rcases hfail with ⟨hv, rfl⟩ | ⟨hv, hdir, rfl⟩
  · exact .inl ⟨⟨ch, dir, c, hd, hc, hv⟩, rfl⟩
  · exact .inr ⟨not_valid_row_of_valid hd hc hv, .inl ⟨⟨ch, dir, c, hd, hc, hdir⟩, rfl⟩⟩

/-- Where a data command has its channel, the first failing row of R201 is one of the chunk's. -/
theorem firstCode_of_hasData {c : Channel} (hc : HasData s ch dir c) {code : BitVec 4}
    (h : firstCode ((failedChecks i s).drop 4) code) : firstCode (failedChecks i s) code := by
  obtain ⟨hch, hv, hdir⟩ := hc
  have hlt : ch < s.nch := (List.getElem?_eq_some_iff.mp hch).1
  exact .inr ⟨not_channel_row_of_lt hd hlt, .inr ⟨not_distance_row_of_dataDir hd,
    .inr ⟨not_valid_row_of_valid hd hch hv, .inr ⟨not_dir_row_of_dir hd hch hdir, h⟩⟩⟩⟩

end

/-! ### The byte step (R160) -/

theorem lookback_index (c : Channel) :
    (trunc8 (c.dist.toNat + c.pos.toNat)).toNat = (c.dist.toNat + c.pos.toNat) % 256 := by
  rw [← Nat.cast_add, trunc8_ofNat, BitVec.toNat_ofNat]

/-- The slot the lookback byte is read from, as an index of HIST. -/
def Channel.lookbackSlot (c : Channel) : Fin 256 :=
  ⟨(c.dist.toNat + c.pos.toNat) % 256, Nat.mod_lt _ (by decide)⟩

theorem lookback_eq_hist (c : Channel) : c.lookback = c.hist[c.lookbackSlot] := by
  simp only [Channel.lookback, Channel.slot, Channel.lookbackSlot, lookback_index, Fin.getElem_fin]

theorem lookbackSlot_of_dist_max {c : Channel} (h : c.dist.toNat = 256) :
    c.lookbackSlot.val = c.pos.toNat := by
  have := c.pos.isLt
  simp only [Channel.lookbackSlot]
  omega

theorem lookback_of_dist_max {c : Channel} (h : c.dist.toNat = 256) : c.lookback = c.slot c.pos := by
  rw [lookback_eq_hist, Channel.slot]
  simp only [Fin.getElem_fin, lookbackSlot_of_dist_max h]

theorem encStep_snd_toNat (c : Channel) (x : Byte) :
    (encStep c x).2.toNat = (x.toNat + 256 - c.lookback.toNat) % 256 := by
  have := c.lookback.isLt
  rw [encStep_snd, BitVec.toNat_sub]
  omega

/-- POS goes down by one modulo 256 (R29). -/
theorem trunc8_pred_eq_ofNat (p : BitVec 8) :
    trunc8 (p.toNat - 1) = BitVec.ofNat 8 ((p.toNat + 255) % 256) := by
  rw [trunc8_pred]
  apply BitVec.eq_of_toNat_eq
  simp [BitVec.toNat_sub, Nat.add_comm]

/-- Settles O27: the slot is that of the lookback byte, and what is left is the channel after its store. -/
theorem encoderByteStep : Obligations.EncoderByteStep := by
  intro c x
  refine ⟨c.lookback, c.lookbackSlot, rfl, lookback_eq_hist c, lookbackSlot_of_dist_max,
    encStep_snd_toNat c x, ?_⟩
  rw [encStep_fst, Channel.store, trunc8_pred_eq_ofNat]

/-! ### DENCB (R163) -/

theorem decode_dencb {ch x : Nat} (hch : ch ≤ 15) (hx : x ≤ 255) :
    decode (BitVec.ofNat 32 (0x90000000 + ch * 2 ^ 24 + x)) = some (.dencb ch x) := by
  have he : encode (.dencb ch x) = BitVec.ofNat 32 (0x90000000 + ch * 2 ^ 24 + x) :=
    formatCB_eq 0x9 ch x hch hx
  rw [← he]
  exact decodeOfEncodeGivesInstr (.dencb ch x) (by simp [Instr.wellFormed, chOk, imm8Ok, hch, hx])

theorem exec_dencb_succeeds {s : State} {ch : Nat} {c : Channel} (hc : HasData s ch .encoder c) (x : Byte) :
    exec (.dencb ch x.toNat) s =
      .next (succeed { s.setChannel ch (encStep c x).1 with res := (encStep c x).2.setWidth 32 }) :=
  exec_of_effect ⟨c, hc, by rw [BitVec.ofNat_toNat, BitVec.setWidth_eq]⟩

/-- The example of R163: a fresh encoder with distance 1 gives its first byte unchanged, and the byte is
in slot 0. -/
theorem exec_dencb_fresh {s : State} (hf : s.fresh 0 .encoder 1) :
    ∃ t h, exec (.dencb 0 10) s = .next t ∧ t.res = 0x0000000A ∧ t.channels[0]? = some h ∧
      h.pos = 0xFF ∧ h.slot 0 = 10 := by
  obtain ⟨h1, h256, hc⟩ := hf
  have hlt := (List.getElem?_eq_some_iff.mp hc).1
  have hback := lookback_of_holds (holds_fresh .encoder 1) h1 h256
  refine ⟨_, _, exec_dencb_succeeds ⟨hc, rfl, rfl⟩ 10, ?_, List.getElem?_set_self hlt, ?_, ?_⟩
  · simp only [succeed_res, encStep_snd]
    rw [hback]
    rfl
  · rw [encStep_fst, store_pos]
    rfl
  · rw [encStep_fst, slot_store]
    exact if_pos rfl

/-- Settles O28: the three checks are those of every data command, and the effect is one byte step. -/
theorem dencbEncodesByte : Obligations.DencbEncodesByte := by
  refine ⟨fun ch x => decode_dencb, fun w => decode_none_of_reserved_bit 0x9 rfl,
    fun s ch x => exec_data_invalidChannel rfl, fun s ch x c => exec_data_unconfigured rfl,
    fun s ch x c => exec_data_wrongDirection rfl, fun s ch x c hc hv hdir => ?_, fun s => exec_dencb_fresh,
    fun c x => ⟨encStep_snd_toNat c x, lookback_of_dist_max⟩⟩
  rw [exec_dencb_succeeds ⟨hc, hv, hdir⟩, BitVec.ofNat_toNat]
  rfl

/-! ### The checks of DENC (R164) -/

theorem decode_denc {ch : Nat} (hch : ch ≤ 15) :
    decode (BitVec.ofNat 32 (0xA0000000 + ch * 2 ^ 24)) = some (.denc ch) := by
  have he : encode (.denc ch) = BitVec.ofNat 32 (0xA0000000 + ch * 2 ^ 24) := formatC_eq 0xA ch hch
  rw [← he]
  exact decodeOfEncodeGivesInstr (.denc ch) (decide_eq_true hch)

section
variable {s : State} {ch : Nat} {c : Channel}

theorem exec_denc_bufferCapacity (hc : HasData s ch .encoder c) (hcap : s.cap.toNat < s.len.toNat) :
    exec (.denc ch) s = .next (s.afterError 6) :=
  exec_of_error (e := .bufferCapacity) (dencBody_error.mpr (.inr ⟨c, hc, .inl ⟨hcap, rfl⟩⟩))

theorem exec_denc_addressRange (hc : HasData s ch .encoder c) (hcap : s.len.toNat ≤ s.cap.toNat)
    (hr : outOfRange s s.src s.len ∨ outOfRange s s.dst s.len) :
    exec (.denc ch) s = .next (s.afterError 7) :=
  exec_of_error (e := .addressRange) (dencBody_error.mpr (.inr ⟨c, hc, .inr ⟨hcap, hr, rfl⟩⟩))

/-- The error DENC raises is that of the first row of R201 that fails. -/
theorem firstCode_of_dencBody_error {e : ErrorCode} (he : dencBody ch s = .error e) :
    firstCode (failedChecks (.denc ch) s) e.code := by
  rcases dencBody_error.mp he with hdata | ⟨c, hc, ⟨hcap, rfl⟩ | ⟨hcap, hr, rfl⟩⟩
  · exact firstCode_of_dataChannel_error rfl hdata
  · exact firstCode_of_hasData rfl hc (.inl ⟨⟨⟨ch, rfl⟩, hcap⟩, rfl⟩)
  · refine firstCode_of_hasData rfl hc (.inr ⟨fun h => Nat.not_lt.mpr hcap h.2, ?_⟩)
    by_cases hsrc : outOfRange s s.src s.len
    · exact .inl ⟨⟨⟨ch, .inl rfl⟩, hsrc⟩, rfl⟩
    · exact .inr ⟨fun h => hsrc h.2, .inl ⟨⟨⟨ch, rfl⟩, hr.resolve_left hsrc⟩, rfl⟩⟩

theorem dencReady_iff : dencReady s ch c ↔ HasData s ch .encoder c ∧ s.len.toNat ≤ s.cap.toNat ∧
    ¬ outOfRange s s.src s.len ∧ ¬ outOfRange s s.dst s.len := by
  have hrange : (s.len.toNat = 0 ∨
      (s.src.toNat + s.len.toNat ≤ s.dmem.size ∧ s.dst.toNat + s.len.toNat ≤ s.dmem.size)) ↔
      ¬ outOfRange s s.src s.len ∧ ¬ outOfRange s s.dst s.len := by
    simp only [outOfRange]
    omega
  simp only [dencReady, HasData, hrange, and_assoc]

/-! ### The byte steps of DENC (R165, R166) -/

/-- A DENC whose checks pass is a chunk of encoder byte steps. -/
theorem exec_denc_of_ready (h : dencReady s ch c) :
    exec (.denc ch) s = .next (succeed { s.setChannel ch
        (runChunk encStep s.len.toNat s.src.toNat s.dst.toNat (c, s.dmem)).1 with
      dmem := (runChunk encStep s.len.toNat s.src.toNat s.dst.toNat (c, s.dmem)).2 }) := by
  obtain ⟨hc, hcap, hsrc, hdst⟩ := dencReady_iff.mp h
  exact exec_of_effect ⟨c, hc, hcap, hsrc, hdst, rfl⟩

/-- A DENC with no channel content that makes it ready raises an error. -/
theorem dencBody_error_of_not_ready (h : ∀ c, ¬ dencReady s ch c) : ∃ e, dencBody ch s = .error e := by
  cases hb : dencBody ch s with
  | error e => exact ⟨e, rfl⟩
  | ok u =>
    obtain ⟨c, hc, hcap, hsrc, hdst, -⟩ := dencBody_ok.mp hb
    exact absurd (dencReady_iff.mpr ⟨hc, hcap, hsrc, hdst⟩) (h c)

end

/-- Settles O29: one check of DENC each, the channel's being those of every data command. -/
theorem dencChecksInOrder : Obligations.DencChecksInOrder := by
  refine fun s ch => ⟨exec_data_invalidChannel rfl, fun c hc => ⟨exec_data_unconfigured rfl hc,
    exec_data_wrongDirection rfl hc, fun hv hdir => ?_⟩⟩
  have hdata : HasData s ch .encoder c := ⟨hc, hv, hdir⟩
  exact ⟨exec_denc_bufferCapacity hdata,
    fun hcap hpos hsrc => exec_denc_addressRange hdata hcap (.inl ⟨hpos, hsrc⟩),
    fun hcap hpos _ hdst => exec_denc_addressRange hdata hcap (.inr ⟨hpos, hdst⟩)⟩

/-- Settles O30: `f i` is the chunk of the first `i` bytes. -/
theorem dencRunsChunk : Obligations.DencRunsChunk := by
  refine ⟨fun ch => decode_denc, fun w => decode_none_of_reserved_bit 0xA rfl, fun s ch hnot => ?_,
    fun s ch c hready => ?_, fun s ch c hready hlen => ?_⟩
  · obtain ⟨e, he⟩ := dencBody_error_of_not_ready hnot
    exact ⟨e.code, code_ne_zero e, firstCode_of_dencBody_error he, exec_of_error (i := .denc ch) he⟩
  · exact ⟨fun i => runChunk encStep i s.src.toNat s.dst.toNat (c, s.dmem), rfl,
      fun i _ => runChunk_last encStep i _ _ _, exec_denc_of_ready hready⟩
  · exact exec_of_effect (effect_denc_of_len_zero hlen (dencReady_iff.mp hready).1)

/-- Settles O31: byte step `i` reads what R165 says it reads, and gives what DMEM holds at DST + i at the
end. -/
theorem dencOverlapIsSequential : Obligations.DencOverlapIsSequential := by
  intro s t ch c hready hx
  have hlt := (List.getElem?_eq_some_iff.mp hready.1).1
  rw [exec_denc_of_ready hready] at hx
  cases hx
  have hread := fun i hi =>
    runChunk_read_source encStep (n := s.len.toNat) (i := i) hi s.src.toNat s.dst.toNat c s.dmem
  refine ⟨fun i => (runChunk encStep i s.src.toNat s.dst.toNat (c, s.dmem)).1,
    chunkInput encStep s.src.toNat s.dst.toNat (c, s.dmem), _, rfl,
    fun i hi => chunk_step encStep _ _ _ hi, List.getElem?_set_self hlt, fun i _ => rfl,
    fun hdisj i hi => ?_, fun hlo hhi i hi => ⟨fun hbefore => ?_, fun hafter => ?_⟩⟩
  · exact (hread i hi).trans (if_neg (by omega))
  · exact (hread i hi).trans (if_neg (by omega))
  · have haddr : s.src.toNat + i = s.dst.toNat + (i - (s.dst.toNat - s.src.toNat)) := by omega
    refine (hread i hi).trans ((if_pos ⟨hlo, by omega⟩).trans ?_)
    rw [haddr]

/-! ### What the encoder commands write (R163, R166) -/

/-- Settles O32: DENC by the frame of DMEM; DENCB puts one byte in RES. -/
theorem encoderWriteSet : Obligations.EncoderWriteSet := by
  refine ⟨fun s t ch hx _ a ha => ?_, fun s t ch x hx h0 => ?_⟩
  · obtain ⟨-, hframe⟩ := memoryFrame (.denc ch) s t hx
    exact hframe a (fun _ => ha) (fun ⟨_, h⟩ => nomatch h)
  · obtain ⟨u, ⟨c, -, rfl⟩, rfl⟩ := effect_of_success hx h0
    refine ⟨?_, rfl⟩
    rw [succeed_res, BitVec.toNat_setWidth_of_le (by decide)]
    exact BitVec.isLt _

end Sys2Proof.Machine
end

section
/-! The delta decoder (44_delta_decoder.md): its byte step (R180), DDECB (R183), DDEC in place with its
checks in order (R184, R186), and the closed form of its runs (R181). -/

namespace Sys2Proof.Machine

/-! ### Runs (R181) -/

/-- A decoder stores the bytes it gives (R180). -/
theorem stream_decStep_channel (h : Channel) (ys : List Byte) :
    (stream decStep h ys).1 = h.storeAll (stream decStep h ys).2 := by
  induction ys generalizing h with
  | nil => rfl
  | cons y ys ih =>
    simp only [stream, ih, decStep_fst, decStep_snd]
    rfl

/-- The first `k` bytes a stream gives are those its first `k` bytes give. -/
theorem stream_take (f : Channel → Byte → Channel × Byte) (h : Channel) (xs : List Byte) (k : Nat) :
    (stream f h (xs.take k)).2 = (stream f h xs).2.take k := by
  induction xs generalizing h k with
  | nil => simp [stream]
  | cons x xs ih =>
    cases k with
    | zero => rfl
    | succ k => exact congrArg _ (ih _ k)

/-- A fresh decoder with distance `d` gives `y_k + x_{k-d}`, where `x` is what it gives (R181). -/
theorem stream_decStep_getD {h : Channel} {d : Nat} (H : Holds h d []) (h1 : 1 ≤ d) (h256 : d ≤ 256)
    {ys : List Byte} {k : Nat} (hk : k < ys.length) :
    (stream decStep h ys).2.getD k 0 = ys.getD k 0 + lagged (stream decStep h ys).2 d k := by
  have hlen : ((stream decStep h ys).2.take k).length = k :=
    List.length_take_of_le (hk.le.trans (stream_length decStep h ys).ge)
  have hback : (h.storeAll ((stream decStep h ys).2.take k)).lookback =
      lagged ((stream decStep h ys).2.take k) d ((stream decStep h ys).2.take k).length :=
    lookback_of_holds (holds_storeAll H _) h1 h256
  rw [stream_getD decStep h hk, decStep_snd, stream_decStep_channel, stream_take, hback, hlen,
    lagged_take _ h1]

/-- Settles O40: a run is a stream on a channel that holds nothing, and its history is that of R31. -/
theorem decoderClosedForm : Obligations.DecoderClosedForm := by
  intro c d s u ys xs hf hr
  obtain ⟨h, hu, hhist, -⟩ := historyHoldsLatestBytes c d s u xs ys (.inr ⟨hf, hr⟩)
  obtain ⟨h1, h256, hc⟩ := hf
  obtain ⟨k, -, hk⟩ := decRun_streams hr _ hc
  obtain rfl := congrArg Prod.snd hk
  exact ⟨stream_length _ _ _, fun _ => stream_decStep_getD (holds_fresh .decoder d) h1 h256, h, hu, hhist⟩

/-! ### The byte step (R180) -/

theorem decStep_snd_toNat (c : Channel) (y : Byte) :
    (decStep c y).2.toNat = (y.toNat + c.lookback.toNat) % 256 := by
  rw [decStep_snd, BitVec.toNat_add]

/-- Settles O35: the slot is that of the lookback byte, and what is left is the channel after its store. -/
theorem decoderByteStep : Obligations.DecoderByteStep := by
  intro c y
  refine ⟨c.lookback, (decStep c y).2, c.lookbackSlot, rfl, lookback_eq_hist c, decStep_snd_toNat c y,
    rfl, ?_⟩
  rw [decStep_fst, decStep_snd, Channel.store, trunc8_pred_eq_ofNat]

/-! ### DDECB (R183) -/

theorem decode_ddecb {ch y : Nat} (hch : ch ≤ 15) (hy : y ≤ 255) :
    decode (BitVec.ofNat 32 (0xB0000000 + ch * 2 ^ 24 + y)) = some (.ddecb ch y) := by
  have he : encode (.ddecb ch y) = BitVec.ofNat 32 (0xB0000000 + ch * 2 ^ 24 + y) :=
    formatCB_eq 0xB ch y hch hy
  rw [← he]
  exact decodeOfEncodeGivesInstr (.ddecb ch y) (by simp [Instr.wellFormed, chOk, imm8Ok, hch, hy])

theorem exec_ddecb_succeeds {s : State} {ch : Nat} {c : Channel} (hc : HasData s ch .decoder c) (y : Byte) :
    exec (.ddecb ch y.toNat) s =
      .next (succeed { s.setChannel ch (decStep c y).1 with res := (decStep c y).2.setWidth 32 }) :=
  exec_of_effect ⟨c, hc, by rw [BitVec.ofNat_toNat, BitVec.setWidth_eq]⟩

/-- The example of R183: a fresh decoder with distance 1 gives its first byte unchanged, and the byte is
in slot 0. -/
theorem exec_ddecb_fresh {s : State} (hf : s.fresh 1 .decoder 1) :
    ∃ t h, exec (.ddecb 1 10) s = .next t ∧ t.res = 0x0000000A ∧ t.channels[1]? = some h ∧
      h.pos = 0xFF ∧ h.slot 0 = 10 := by
  obtain ⟨h1, h256, hc⟩ := hf
  have hlt := (List.getElem?_eq_some_iff.mp hc).1
  have hback := lookback_of_holds (holds_fresh .decoder 1) h1 h256
  refine ⟨_, _, exec_ddecb_succeeds ⟨hc, rfl, rfl⟩ 10, ?_, List.getElem?_set_self hlt, ?_, ?_⟩
  · simp only [succeed_res, decStep_snd]
    rw [hback]
    rfl
  · rw [decStep_fst, store_pos]
    rfl
  · rw [decStep_fst, slot_store, hback]
    exact if_pos rfl

/-- Settles O36: the three checks are those of every data command, and the effect is one byte step. -/
theorem ddecbDecodesByte : Obligations.DdecbDecodesByte := by
  refine ⟨fun ch y => decode_ddecb, fun w => decode_none_of_reserved_bit 0xB rfl,
    fun s ch y => exec_data_invalidChannel rfl, fun s ch y c => exec_data_unconfigured rfl,
    fun s ch y c => exec_data_wrongDirection rfl, fun s ch y c hc hv hdir => ?_, fun s => exec_ddecb_fresh,
    decStep_snd_toNat⟩
  rw [exec_ddecb_succeeds ⟨hc, hv, hdir⟩, BitVec.ofNat_toNat]
  rfl

/-! ### The checks of DDEC (R184) -/

theorem decode_ddec {ch : Nat} (hch : ch ≤ 15) :
    decode (BitVec.ofNat 32 (0xC0000000 + ch * 2 ^ 24)) = some (.ddec ch) := by
  have he : encode (.ddec ch) = BitVec.ofNat 32 (0xC0000000 + ch * 2 ^ 24) := formatC_eq 0xC ch hch
  rw [← he]
  exact decodeOfEncodeGivesInstr (.ddec ch) (decide_eq_true hch)

section
variable {s : State} {ch : Nat} {c : Channel}

theorem exec_ddec_addressRange (hc : HasData s ch .decoder c) (hr : outOfRange s s.src s.len) :
    exec (.ddec ch) s = .next (s.afterError 7) :=
  exec_of_error (e := .addressRange) (ddecBody_error.mpr (.inr ⟨c, hc, hr, rfl⟩))

/-- The error DDEC raises is that of the first row of R201 that fails; capacity is no check of DDEC. -/
theorem firstCode_of_ddecBody_error {e : ErrorCode} (he : ddecBody ch s = .error e) :
    firstCode (failedChecks (.ddec ch) s) e.code := by
  rcases ddecBody_error.mp he with hdata | ⟨c, hc, hr, rfl⟩
  · exact firstCode_of_dataChannel_error rfl hdata
  · exact firstCode_of_hasData rfl hc
      (.inr ⟨fun ⟨⟨_, h⟩, _⟩ => (nomatch h), .inl ⟨⟨⟨ch, .inr rfl⟩, hr⟩, rfl⟩⟩)

theorem ddecReady_iff : ddecReady s ch c ↔ HasData s ch .decoder c ∧ ¬ outOfRange s s.src s.len := by
  have hrange : (s.len.toNat = 0 ∨ s.src.toNat + s.len.toNat ≤ s.dmem.size) ↔
      ¬ outOfRange s s.src s.len := by
    simp only [outOfRange]
    omega
  simp only [ddecReady, HasData, hrange, and_assoc]

/-- A DDEC with no channel content that makes it ready raises an error. -/
theorem ddecBody_error_of_not_ready (h : ∀ c, ¬ ddecReady s ch c) : ∃ e, ddecBody ch s = .error e := by
  cases hb : ddecBody ch s with
  | error e => exact ⟨e, rfl⟩
  | ok u =>
    obtain ⟨c, hc, hsrc, -⟩ := ddecBody_ok.mp hb
    exact absurd (ddecReady_iff.mpr ⟨hc, hsrc⟩) (h c)

/-! ### DDEC in place (R186) -/

/-- A DDEC whose checks pass is a chunk of decoder byte steps whose destination is its source. -/
theorem exec_ddec_of_ready (h : ddecReady s ch c) :
    exec (.ddec ch) s = .next (succeed { s.setChannel ch
        (runChunk decStep s.len.toNat s.src.toNat s.src.toNat (c, s.dmem)).1 with
      dmem := (runChunk decStep s.len.toNat s.src.toNat s.src.toNat (c, s.dmem)).2 }) := by
  obtain ⟨hc, hsrc⟩ := ddecReady_iff.mp h
  exact exec_of_effect ⟨c, hc, hsrc, rfl⟩

end

/-- In place, byte step `i` reads the byte DMEM held at the start: the steps before it wrote below it. -/
theorem chunkInput_inPlace (f : Channel → Byte → Channel × Byte) (a : Nat) (cm : Channel × Memory)
    (i : Nat) : chunkInput f a a cm i = cm.2.read (a + i) :=
  runChunk_read_outside f i a a _ cm (.inr le_rfl)

/-- Settles O37: the channel's checks are those of every data command, the range check is DDEC's own, and
DDEC does not read CAP. -/
theorem ddecChecksInOrder : Obligations.DdecChecksInOrder := by
  refine fun s ch => ⟨exec_data_invalidChannel rfl, fun c hc => ⟨exec_data_unconfigured rfl hc,
    exec_data_wrongDirection rfl hc, fun hv hdir hpos hsrc => ?_, fun hready v => ?_⟩⟩
  · exact exec_ddec_addressRange ⟨hc, hv, hdir⟩ ⟨hpos, hsrc⟩
  · exact ⟨_, exec_ddec_dst_cap s.dst v (exec_ddec_of_ready hready), rfl⟩

/-- Settles O38: `f i` is the channel after the chunk of the first `i` bytes. -/
theorem ddecDecodesInPlace : Obligations.DdecDecodesInPlace := by
  refine ⟨fun ch => decode_ddec, fun w => decode_none_of_reserved_bit 0xC rfl, fun s ch hnot => ?_,
    fun s ch c hready => ?_⟩
  · obtain ⟨e, he⟩ := ddecBody_error_of_not_ready hnot
    exact ⟨e.code, code_ne_zero e, firstCode_of_ddecBody_error he, exec_of_error (i := .ddec ch) he⟩
  · refine ⟨_, fun i => (runChunk decStep i s.src.toNat s.src.toNat (c, s.dmem)).1,
      exec_ddec_of_ready hready, rfl, fun i hi => ?_, fun a => ?_, rfl⟩
    · have hstep := chunk_step decStep s.src.toNat s.src.toNat (c, s.dmem) hi
      rwa [chunkInput_inPlace] at hstep
    · exact runChunk_read_outside decStep _ _ _ a (c, s.dmem)

/-! ### What the decoder commands write (R183, R186) -/

/-- Settles O39: DDEC by the frame of DMEM; DDECB puts one byte in RES. -/
theorem decoderWriteSet : Obligations.DecoderWriteSet := by
  refine ⟨fun s t ch hx _ a ha => ?_, fun s t ch y hx h0 => ?_⟩
  · obtain ⟨-, hframe⟩ := memoryFrame (.ddec ch) s t hx
    exact hframe a (fun ⟨_, h⟩ => nomatch h) (fun _ => ha)
  · obtain ⟨u, ⟨c, -, rfl⟩, rfl⟩ := effect_of_success hx h0
    refine ⟨?_, rfl⟩
    rw [succeed_res, BitVec.toNat_setWidth_of_le (by decide)]
    exact BitVec.isLt _

end Sys2Proof.Machine
end

section
/-! How a command ends (60_exceptions.md): the first check that fails gives the code (R201), an error writes
nothing but STATUS and cmdidx (R203), and a success clears LAST (R204). -/

namespace Sys2Proof.Machine

/-! ### The first row that fails (R201) -/

/-- The first row that fails fixes the code. -/
theorem firstCode_unique {rows : List (BitVec 4 × Prop)} {a b : BitVec 4} (ha : firstCode rows a)
    (hb : firstCode rows b) : a = b := by
  induction rows with
  | nil => exact ha.trans hb.symm
  | cons row rows ih =>
    obtain ⟨k, p⟩ := row
    rcases ha with ⟨hp, rfl⟩ | ⟨hp, ha⟩ <;> rcases hb with ⟨hp', rfl⟩ | ⟨hp', hb⟩
    · rfl
    · exact absurd hp hp'
    · exact absurd hp' hp
    · exact ih ha hb

/-- A command that names no channel has no check after its decode. -/
theorem firstCode_of_no_channel {i : Instr} (hn : namedChannel i = none) (s : State) :
    firstCode (failedChecks i s) 0 := by
  cases i <;> simp_all [failedChecks, firstCode, namedChannel, dataDir]

/-- The checks of a construction: its channel, then its distance (R141, R142). -/
theorem firstCode_construction {dir : Dir} {ch : Nat} {d : Int} {s : State} {code : BitVec 4} :
    firstCode (failedChecks (construction dir ch d) s) code ↔
      firstCode [(2, s.nch ≤ ch), (3, ¬ (1 ≤ d ∧ d ≤ 256))] code := by
  cases dir <;> simp [failedChecks, firstCode, construction, namedChannel, dataDir]

/-- The only check of DREL is its channel (R144). -/
theorem firstCode_drel {ch : Nat} {s : State} {code : BitVec 4} :
    firstCode (failedChecks (.drel ch) s) code ↔ firstCode [(2, s.nch ≤ ch)] code := by
  simp [failedChecks, firstCode, namedChannel, dataDir]

/-! ### A command that failed reports its first failing row -/

/-- The error a construction raises is that of the first row of R201 that fails. -/
theorem firstCode_of_constructBody_error {dir : Dir} {ch : Nat} {d : Int} {s : State} {e : ErrorCode}
    (he : constructBody dir ch d s = .error e) :
    firstCode (failedChecks (construction dir ch d) s) e.code := by
  rw [firstCode_construction]
  rcases constructBody_error.mp he with ⟨hle, rfl⟩ | ⟨hlt, hd, rfl⟩
  · exact .inl ⟨hle, rfl⟩
  · exact .inr ⟨Nat.not_le.mpr hlt, .inl ⟨hd, rfl⟩⟩

/-- The error a command raises is that of the first row of R201 that fails. -/
theorem firstCode_of_body_error {i : Instr} {s : State} {e : ErrorCode} (he : body i s = .error e) :
    firstCode (failedChecks i s) e.code := by
  cases i with
  | dinite ch d => exact firstCode_of_constructBody_error (dir := .encoder) he
  | dinitd ch d => exact firstCode_of_constructBody_error (dir := .decoder) he
  | drel ch =>
    obtain ⟨hle, rfl⟩ := releaseBody_error.mp he
    exact firstCode_drel.mpr (.inl ⟨hle, rfl⟩)
  | dencb ch x => exact firstCode_of_dataChannel_error rfl (dencbBody_error.mp he)
  | denc ch => exact firstCode_of_dencBody_error he
  | ddecb ch y => exact firstCode_of_dataChannel_error rfl (ddecbBody_error.mp he)
  | ddec ch => exact firstCode_of_ddecBody_error he
  | _ => simp [body] at he

/-! ### A command that had its effect has no failing row -/

theorem firstCode_of_effect_construction {dir : Dir} {ch : Nat} {d : Int} {s u : State}
    (he : Effect (construction dir ch d) s u) : firstCode (failedChecks (construction dir ch d) s) 0 := by
  obtain ⟨hlt, hd, -⟩ := effect_construction.mp he
  exact firstCode_construction.mpr (.inr ⟨Nat.not_le.mpr hlt, .inr ⟨not_not_intro hd, rfl⟩⟩)

/-- A command that had its effect failed no row of R201. -/
theorem firstCode_of_effect {i : Instr} {s u : State} (he : Effect i s u) :
    firstCode (failedChecks i s) 0 := by
  cases i with
  | dinite ch d => exact firstCode_of_effect_construction (dir := .encoder) he
  | dinitd ch d => exact firstCode_of_effect_construction (dir := .decoder) he
  | drel ch => exact firstCode_drel.mpr (.inr ⟨Nat.not_le.mpr he.1, rfl⟩)
  | dencb ch x =>
    obtain ⟨c, hc, -⟩ := he
    exact firstCode_of_hasData rfl hc (by simp [failedChecks, firstCode])
  | denc ch =>
    obtain ⟨c, hc, hcap, hsrc, hdst, -⟩ := he
    exact firstCode_of_hasData rfl hc (by simp [failedChecks, firstCode, hcap, hsrc, hdst])
  | ddecb ch y =>
    obtain ⟨c, hc, -⟩ := he
    exact firstCode_of_hasData rfl hc (by simp [failedChecks, firstCode])
  | ddec ch =>
    obtain ⟨c, hc, hsrc, -⟩ := he
    exact firstCode_of_hasData rfl hc (by simp [failedChecks, firstCode, hsrc])
  | _ => exact firstCode_of_no_channel rfl s

/-! ### What a command reports -/

/-- LAST after a command is the code of the first row of R201 that fails, or 0. -/
theorem firstCode_of_exec {i : Instr} {s t : State} (hx : exec i s = .next t) :
    firstCode (failedChecks i s) t.status.last := by
  rcases exec_cases.mp hx with ⟨u, he, rfl⟩ | ⟨e, he, rfl⟩
  · exact firstCode_of_effect he
  · exact firstCode_of_body_error he

/-- A command started with another STATUS reports the same code and leaves the same state but for STATUS. -/
theorem exec_status {i : Instr} {s t : State} (hx : exec i s = .next t) (st : Status) :
    ∃ t', exec i { s with status := st } = .next t' ∧ t' = { t with status := t'.status } ∧
      t'.status.last = t.status.last := by
  rw [exec_eq_finish, body_status]
  rw [exec_eq_finish] at hx
  rcases finish_next.mp hx with ⟨u, hb, rfl⟩ | ⟨e, hb, rfl⟩
  · exact ⟨succeed { u with status := st }, by rw [hb]; rfl, rfl, rfl⟩
  · exact ⟨raiseError e { s with status := st }, by rw [hb]; rfl, rfl, rfl⟩

/-! ### The obligations on errors -/

/-- Settles O43: an effect has no failing row, an error is its first one, and an illegal word is no
command. -/
theorem firstFailingCheckIsReported : Obligations.FirstFailingCheckIsReported := by
  refine ⟨fun i s t => firstCode_of_exec, fun w s t rest hd hp hx => ?_⟩
  rw [step_illegal hd hp] at hx
  cases hx
  rfl

/-- Settles O44: a failed command is its error's effect, and no body reads STATUS. -/
theorem errorChangesOnlyStatus : Obligations.ErrorChangesOnlyStatus := by
  refine ⟨fun i s t hx h0 => ?_, fun w s rest => step_illegal, fun i s t st hx => exec_status hx st⟩
  obtain ⟨e, -, rfl⟩ := error_of_failure hx h0
  exact ⟨code_le e, rfl⟩

/-- Settles O45: the code is unique, so LAST is 0, and then the command had its effect, which leaves
STATUS. -/
theorem successClearsLastOnly : Obligations.SuccessClearsLastOnly := by
  intro i s t hx hpass
  obtain ⟨u, he, rfl⟩ := effect_of_success hx (firstCode_unique (firstCode_of_exec hx) hpass)
  obtain ⟨hstatus, -⟩ := effect_frame he
  rw [succeed_status, hstatus]

end Sys2Proof.Machine
end

section
/-! What a reset makes of the state (R230): every element at its value of R39, and DMEM as it was. -/

namespace Sys2Proof.Machine

/-- R39's row for a channel: all its fields are 0. -/
theorem empty_eq : Channel.empty = ⟨false, .encoder, 0, 0, Vector.replicate 256 0⟩ := rfl

@[simp] theorem powerUp_channels (n m : Nat) : (State.powerUp n m).channels = List.replicate n Channel.empty := rfl
@[simp] theorem powerUp_src (n m : Nat) : (State.powerUp n m).src = 0 := rfl
@[simp] theorem powerUp_dst (n m : Nat) : (State.powerUp n m).dst = 0 := rfl
@[simp] theorem powerUp_len (n m : Nat) : (State.powerUp n m).len = 0 := rfl
@[simp] theorem powerUp_cap (n m : Nat) : (State.powerUp n m).cap = 0 := rfl
@[simp] theorem powerUp_res (n m : Nat) : (State.powerUp n m).res = 0 := rfl
@[simp] theorem powerUp_status (n m : Nat) : (State.powerUp n m).status = ⟨0, false⟩ := rfl
@[simp] theorem powerUp_cmdidx (n m : Nat) : (State.powerUp n m).cmdidx = 0 := rfl
@[simp] theorem powerUp_dmem_size (n m : Nat) : (State.powerUp n m).dmem.size = m := rfl

/-- The host's reset is taken off its list and put into effect (R231). -/
theorem step_reset {s : State} {rest : List HostAction} (hp : s.port = .reset :: rest) :
    step s = .next (State.hostReset { s with port := rest }) := step_action hp

/-- Settles O11: a step on a reset is `hostReset`, and the elements after it and after `powerUp` are read
off one by one. -/
theorem resetSetsEveryElement : Obligations.ResetSetsEveryElement := by
  refine ⟨fun s rest hp => ⟨_, step_reset hp, ?_⟩, fun n m => ⟨_, rfl, ?_⟩⟩
  · exact ⟨(hostReset_channels _).trans (congrArg (List.replicate s.nch) empty_eq), by simp⟩
  · exact ⟨(powerUp_channels n m).trans (congrArg (List.replicate n) empty_eq), by simp⟩

end Sys2Proof.Machine
end

section
/-! The model's own choices (the assumption log): what the block does with nothing left from the host, and
what power-up and reset leave where the spec leaves it open. -/

namespace Sys2Proof.Machine

/-- Power-up lists no byte, so every byte of DMEM reads as the free value (log 3). -/
@[simp] theorem powerUp_dmem_read (n m a : Nat) : (State.powerUp n m).dmem.read a = Config.powerUpByte a := rfl

@[simp] theorem powerUp_port (n m : Nat) : (State.powerUp n m).port = [] := rfl

/-- Settles O8: with no action to take, a step is the identity. -/
theorem idleStepHoldsState : Obligations.IdleStepHoldsState := fun _ => step_idle

/-- Settles O12: DMEM as power-up leaves it, the list as `hostReset` leaves it, and the parameters of
`State.reset` within the bounds of R10. -/
theorem resetModelChoices : Obligations.ResetModelChoices := by
  refine ⟨powerUp_dmem_read, fun s rest hp => ⟨_, step_reset hp, hostReset_port _⟩,
    Config.resetNch, Config.resetMemBytes, ?_⟩
  exact ⟨by decide, by decide, by decide, by decide, rfl, powerUp_port _ _⟩

end Sys2Proof.Machine
end
